-- ==== Sys2Proof/Word.lean ====
section
/-!
DEFINITION. The two word types of the machine.
-/
namespace Sys2Proof

/-- A byte: an element of MEM, a V register, a timer (R7, R10). -/
abbrev Byte := BitVec 8

/-- A 16-bit word: I, PC, a stack slot, an instruction word (R7, R10). -/
abbrev Word := BitVec 16

end Sys2Proof
end

