-- ==== Sys2Proof/Syntax.lean ====
section
/-!
DEFINITION. The instructions as data: one constructor per row of spec/opcode_table.json.
-/
namespace Sys2Proof

/-- A register number 0 to 15; 15 names VF (R11). -/
abbrev Reg := Fin 16

/-- VF, the flag register (R12). -/
abbrev vf : Reg := 15

/-- The instructions, in the order of R51. Operands are the fields of R46; a don't-care field (R52) is no operand (log 6). -/
inductive Instr where
  /-- 0nnn `SYS nnn`, nnn[7:0] neither 0xE0 nor 0xEE (R66). -/
  | sys (nnn : BitVec 12)
  /-- 00E0 `CLS` (R116). -/
  | cls
  /-- 00EE `RET` (R70). -/
  | ret
  /-- 1nnn `JP nnn` (R71). -/
  | jp (nnn : BitVec 12)
  /-- 2nnn `CALL nnn` (R72). -/
  | call (nnn : BitVec 12)
  /-- 3xkk `SE Vx, kk` (R73). -/
  | seImm (x : Reg) (kk : Byte)
  /-- 4xkk `SNE Vx, kk` (R74). -/
  | sneImm (x : Reg) (kk : Byte)
  /-- 5xy0 `SE Vx, Vy` (R75). -/
  | seReg (x y : Reg)
  /-- 6xkk `LD Vx, kk` (R82). -/
  | ldImm (x : Reg) (kk : Byte)
  /-- 7xkk `ADD Vx, kk` (R83). -/
  | addImm (x : Reg) (kk : Byte)
  /-- 8xy0 `LD Vx, Vy` (R84). -/
  | ldReg (x y : Reg)
  /-- 8xy1 `OR Vx, Vy` (R85). -/
  | orReg (x y : Reg)
  /-- 8xy2 `AND Vx, Vy` (R86). -/
  | andReg (x y : Reg)
  /-- 8xy3 `XOR Vx, Vy` (R87). -/
  | xorReg (x y : Reg)
  /-- 8xy4 `ADD Vx, Vy` (R88). -/
  | addReg (x y : Reg)
  /-- 8xy5 `SUB Vx, Vy` (R89). -/
  | sub (x y : Reg)
  /-- 8xy6 `SHR Vx` (R91). -/
  | shr (x : Reg)
  /-- 8xy7 `SUBN Vx, Vy` (R90). -/
  | subn (x y : Reg)
  /-- 8xyE `SHL Vx` (R92). -/
  | shl (x : Reg)
  /-- 9xy0 `SNE Vx, Vy` (R76). -/
  | sneReg (x y : Reg)
  /-- Annn `LD I, nnn` (R96). -/
  | ldI (nnn : BitVec 12)
  /-- Bnnn `JP V0, nnn` (R78). -/
  | jpV0 (nnn : BitVec 12)
  /-- Cxkk `RND Vx, kk` (R93). -/
  | rnd (x : Reg) (kk : Byte)
  /-- Dxyn `DRW Vx, Vy, n` (R117); n is a row count 0 to 15. -/
  | drw (x y : Reg) (n : Fin 16)
  /-- Ex9E `SKP Vx` (R106). -/
  | skp (x : Reg)
  /-- ExA1 `SKNP Vx` (R107). -/
  | sknp (x : Reg)
  /-- Fx07 `LD Vx, DT` (R108). -/
  | ldVxDt (x : Reg)
  /-- Fx0A `LD Vx, K` (R109). -/
  | ldVxK (x : Reg)
  /-- Fx15 `LD DT, Vx` (R110). -/
  | ldDtVx (x : Reg)
  /-- Fx18 `LD ST, Vx` (R111). -/
  | ldStVx (x : Reg)
  /-- Fx1E `ADD I, Vx` (R97). -/
  | addI (x : Reg)
  /-- Fx29 `LD F, Vx` (R98). -/
  | ldF (x : Reg)
  /-- Fx33 `LD B, Vx` (R99). -/
  | ldB (x : Reg)
  /-- Fx55 `LD [I], Vx` (R101). -/
  | ldMemVx (x : Reg)
  /-- Fx65 `LD Vx, [I]` (R102). -/
  | ldVxMem (x : Reg)
  /-- `UNRECOGNIZED`: a word of family 8, E or F with no matching secondary case (R54, R65). The word is kept so that it
  can be written out again; no meaning reads it. -/
  | unrecognized (op : Word)
  deriving DecidableEq, Repr

end Sys2Proof
end

