-- ==== Sys2Proof/WellFormed.lean ====
section
/-!
DEFINITION. Which instruction terms stand for instruction words. Every register number, immediate and row count of its
type is legal (R48: "no register field can be out of range"), so only the two catch-alls have a check: each must not name
a word that a row before it in the table takes (R53, R54).
-/
namespace Sys2Proof

/-- `SYS nnn` does not exist for nnn[7:0] = 0xE0 or 0xEE: those words are CLS and RET (R66). -/
def sysSelectorFree (nnn : BitVec 12) : Bool :=
  nnn.toNat % 256 != 0xE0 && nnn.toNat % 256 != 0xEE

/-- The words of R54 outside family 0: family 8, E or F without a matching selector. -/
def isUnrecognizedWord (op : Word) : Bool :=
  let low := op.toNat % 256
  match op.toNat / 4096 with
  | 0x8 => [0x8, 0x9, 0xA, 0xB, 0xC, 0xD, 0xF].contains (op.toNat % 16)
  | 0xE => !([0x9E, 0xA1].contains low)
  | 0xF => !([0x07, 0x0A, 0x15, 0x18, 0x1E, 0x29, 0x33, 0x55, 0x65].contains low)
  | _ => false

/-- An instruction term is well formed when some word of memory stands for it. -/
def Instr.wellFormed : Instr → Bool
  | .sys nnn => sysSelectorFree nnn
  | .unrecognized op => isUnrecognizedWord op
  | .cls | .ret | .jp _ | .call _ | .seImm _ _ | .sneImm _ _ | .seReg _ _ | .ldImm _ _ | .addImm _ _ | .ldReg _ _
  | .orReg _ _ | .andReg _ _ | .xorReg _ _ | .addReg _ _ | .sub _ _ | .shr _ | .subn _ _ | .shl _ | .sneReg _ _
  | .ldI _ | .jpV0 _ | .rnd _ _ | .drw _ _ _ | .skp _ | .sknp _ | .ldVxDt _ | .ldVxK _ | .ldDtVx _ | .ldStVx _
  | .addI _ | .ldF _ | .ldB _ | .ldMemVx _ | .ldVxMem _ => true

/-- The predicate claims use. -/
abbrev WellFormed (i : Instr) : Prop := i.wellFormed = true

end Sys2Proof
end

