-- ==== Sys2Proof/Decode.lean ====
section
/-!
DEFINITION. The decoder, total on any bytes, and after it the encoder written from the same formats (R45 to R54), and the
opcode table as data (R51, R53). The opcode numbers are the spec's decision D1 (log 5).
-/
namespace Sys2Proof

/-! ### Fields of an instruction word (R46) -/

/-- `fam = op[15:12]`. -/
def opFam (op : Word) : Nat := (op.extractLsb' 12 4).toNat
/-- `x = op[11:8]`. -/
def opX (op : Word) : Reg := (op.extractLsb' 8 4).toFin
/-- `y = op[7:4]`. -/
def opY (op : Word) : Reg := (op.extractLsb' 4 4).toFin
/-- `n = op[3:0]`. -/
def opN (op : Word) : Fin 16 := (op.extractLsb' 0 4).toFin
/-- `kk = op[7:0]`. -/
def opKk (op : Word) : Byte := op.extractLsb' 0 8
/-- `nnn = op[11:0]`. -/
def opNnn (op : Word) : BitVec 12 := op.extractLsb' 0 12

/-! ### The decoder (R49, R50, R53, R63) -/

/-- Family 0 dispatches on the low byte; what no selector takes is `SYS nnn` (R50, R55). -/
def decodeFamily0 (op : Word) : Instr :=
  match (opKk op).toNat with
  | 0xE0 => .cls
  | 0xEE => .ret
  | _ => .sys (opNnn op)

/-- Family 8 dispatches on the low nibble (R50). -/
def decodeFamily8 (op : Word) : Instr :=
  match (opN op).val with
  | 0x0 => .ldReg (opX op) (opY op)
  | 0x1 => .orReg (opX op) (opY op)
  | 0x2 => .andReg (opX op) (opY op)
  | 0x3 => .xorReg (opX op) (opY op)
  | 0x4 => .addReg (opX op) (opY op)
  | 0x5 => .sub (opX op) (opY op)
  | 0x6 => .shr (opX op)
  | 0x7 => .subn (opX op) (opY op)
  | 0xE => .shl (opX op)
  | _ => .unrecognized op

/-- Family E dispatches on the low byte (R50). -/
def decodeFamilyE (op : Word) : Instr :=
  match (opKk op).toNat with
  | 0x9E => .skp (opX op)
  | 0xA1 => .sknp (opX op)
  | _ => .unrecognized op

/-- Family F dispatches on the low byte (R50). -/
def decodeFamilyF (op : Word) : Instr :=
  match (opKk op).toNat with
  | 0x07 => .ldVxDt (opX op)
  | 0x0A => .ldVxK (opX op)
  | 0x15 => .ldDtVx (opX op)
  | 0x18 => .ldStVx (opX op)
  | 0x1E => .addI (opX op)
  | 0x29 => .ldF (opX op)
  | 0x33 => .ldB (opX op)
  | 0x55 => .ldMemVx (opX op)
  | 0x65 => .ldVxMem (opX op)
  | _ => .unrecognized op

/-- `decode(op)`: total, and a function of `op` alone (R53, R63). -/
def decode (op : Word) : Instr :=
  match opFam op with
  | 0x0 => decodeFamily0 op
  | 0x1 => .jp (opNnn op)
  | 0x2 => .call (opNnn op)
  | 0x3 => .seImm (opX op) (opKk op)
  | 0x4 => .sneImm (opX op) (opKk op)
  | 0x5 => .seReg (opX op) (opY op)
  | 0x6 => .ldImm (opX op) (opKk op)
  | 0x7 => .addImm (opX op) (opKk op)
  | 0x8 => decodeFamily8 op
  | 0x9 => .sneReg (opX op) (opY op)
  | 0xA => .ldI (opNnn op)
  | 0xB => .jpV0 (opNnn op)
  | 0xC => .rnd (opX op) (opKk op)
  | 0xD => .drw (opX op) (opY op) (opN op)
  | 0xE => decodeFamilyE op
  | _ => decodeFamilyF op

/-- Why a list of bytes is no instruction: only because it ends before the second byte (R45: "there is one length"). -/
inductive DecodeError where
  | noByte
  | secondByteMissing (first : Byte)
  deriving DecidableEq, Repr

/-- `Fetch16` on two bytes: the byte at the lower address is `op[15:8]` (R34). -/
def wordOfBytes (hi lo : Byte) : Word := hi ++ lo

/-- The two bytes of a word as memory holds them, the one at the lower address first (R34). -/
def bytesOfWord (op : Word) : Byte × Byte := (op.extractLsb' 8 8, op.extractLsb' 0 8)

/-- The decoder on a list of bytes: the instruction at its front and the rest of the list. -/
def decodeBytes : List Byte → Except DecodeError (Instr × List Byte)
  | [] => .error .noByte
  | [hi] => .error (.secondByteMissing hi)
  | hi :: lo :: rest => .ok (decode (wordOfBytes hi lo), rest)

/-! ### The encoder (R47, R51) -/

/-- A field of one nibble. -/
def nibble (k : Fin 16) : BitVec 4 := BitVec.ofFin k

/-- Format `NNN`. -/
def fmtNNN (fam : BitVec 4) (nnn : BitVec 12) : Word := fam ++ nnn
/-- Format `XKK`, and `XS` with the selector in the place of kk. -/
def fmtXKK (fam : BitVec 4) (x : Reg) (kk : Byte) : Word := fam ++ nibble x ++ kk
/-- Format `XYN`, and `XY` with the selector, or 0 for a don't-care nibble, in the place of n. -/
def fmtXYN (fam : BitVec 4) (x y n : Fin 16) : Word := fam ++ nibble x ++ nibble y ++ nibble n

/-- The word of an instruction; a don't-care field is written as 0 (R51, R52). -/
def encode : Instr → Word
  | .sys nnn => fmtNNN 0x0 nnn
  | .cls => fmtXKK 0x0 0 0xE0
  | .ret => fmtXKK 0x0 0 0xEE
  | .jp nnn => fmtNNN 0x1 nnn
  | .call nnn => fmtNNN 0x2 nnn
  | .seImm x kk => fmtXKK 0x3 x kk
  | .sneImm x kk => fmtXKK 0x4 x kk
  | .seReg x y => fmtXYN 0x5 x y 0x0
  | .ldImm x kk => fmtXKK 0x6 x kk
  | .addImm x kk => fmtXKK 0x7 x kk
  | .ldReg x y => fmtXYN 0x8 x y 0x0
  | .orReg x y => fmtXYN 0x8 x y 0x1
  | .andReg x y => fmtXYN 0x8 x y 0x2
  | .xorReg x y => fmtXYN 0x8 x y 0x3
  | .addReg x y => fmtXYN 0x8 x y 0x4
  | .sub x y => fmtXYN 0x8 x y 0x5
  | .shr x => fmtXYN 0x8 x 0 0x6
  | .subn x y => fmtXYN 0x8 x y 0x7
  | .shl x => fmtXYN 0x8 x 0 0xE
  | .sneReg x y => fmtXYN 0x9 x y 0x0
  | .ldI nnn => fmtNNN 0xA nnn
  | .jpV0 nnn => fmtNNN 0xB nnn
  | .rnd x kk => fmtXKK 0xC x kk
  | .drw x y n => fmtXYN 0xD x y n
  | .skp x => fmtXKK 0xE x 0x9E
  | .sknp x => fmtXKK 0xE x 0xA1
  | .ldVxDt x => fmtXKK 0xF x 0x07
  | .ldVxK x => fmtXKK 0xF x 0x0A
  | .ldDtVx x => fmtXKK 0xF x 0x15
  | .ldStVx x => fmtXKK 0xF x 0x18
  | .addI x => fmtXKK 0xF x 0x1E
  | .ldF x => fmtXKK 0xF x 0x29
  | .ldB x => fmtXKK 0xF x 0x33
  | .ldMemVx x => fmtXKK 0xF x 0x55
  | .ldVxMem x => fmtXKK 0xF x 0x65
  | .unrecognized op => op

/-- The bits of an instruction's words that take part: 0 marks a don't-care bit (R52). -/
def careMask : Instr → Word
  | .cls | .ret => 0xF0FF
  | .seReg _ _ | .sneReg _ _ => 0xFFF0
  | .shr _ | .shl _ => 0xFF0F
  | .sys _ | .jp _ | .call _ | .seImm _ _ | .sneImm _ _ | .ldImm _ _ | .addImm _ _ | .ldReg _ _ | .orReg _ _ | .andReg _ _
  | .xorReg _ _ | .addReg _ _ | .sub _ _ | .subn _ _ | .ldI _ | .jpV0 _ | .rnd _ _ | .drw _ _ _ | .skp _ | .sknp _
  | .ldVxDt _ | .ldVxK _ | .ldDtVx _ | .ldStVx _ | .addI _ | .ldF _ | .ldB _ | .ldMemVx _ | .ldVxMem _
  | .unrecognized _ => 0xFFFF

/-! ### The opcode table as data (R51, R53; spec/opcode_table.json) -/

/-- A row: a word matches it when `(op & mask) = match`; among matching rows the smallest priority wins (R53). -/
structure OpRow where
  name     : String
  mask     : Word
  pattern  : Word
  priority : Nat
  deriving DecidableEq, Repr

/-- Rows of families 0 to 7. -/
def opRowsLow : List OpRow :=
  [⟨"SYS", 0xF000, 0x0000, 2⟩, ⟨"CLS", 0xF0FF, 0x00E0, 1⟩, ⟨"RET", 0xF0FF, 0x00EE, 1⟩, ⟨"JP", 0xF000, 0x1000, 1⟩,
   ⟨"CALL", 0xF000, 0x2000, 1⟩, ⟨"SE_IMM", 0xF000, 0x3000, 1⟩, ⟨"SNE_IMM", 0xF000, 0x4000, 1⟩,
   ⟨"SE_REG", 0xF000, 0x5000, 1⟩, ⟨"LD_IMM", 0xF000, 0x6000, 1⟩, ⟨"ADD_IMM", 0xF000, 0x7000, 1⟩]

/-- Rows of family 8. -/
def opRowsAlu : List OpRow :=
  [⟨"LD_REG", 0xF00F, 0x8000, 1⟩, ⟨"OR", 0xF00F, 0x8001, 1⟩, ⟨"AND", 0xF00F, 0x8002, 1⟩, ⟨"XOR", 0xF00F, 0x8003, 1⟩,
   ⟨"ADD_REG", 0xF00F, 0x8004, 1⟩, ⟨"SUB", 0xF00F, 0x8005, 1⟩, ⟨"SHR", 0xF00F, 0x8006, 1⟩, ⟨"SUBN", 0xF00F, 0x8007, 1⟩,
   ⟨"SHL", 0xF00F, 0x800E, 1⟩]

/-- Rows of families 9 to E. -/
def opRowsMid : List OpRow :=
  [⟨"SNE_REG", 0xF000, 0x9000, 1⟩, ⟨"LD_I", 0xF000, 0xA000, 1⟩, ⟨"JP_V0", 0xF000, 0xB000, 1⟩, ⟨"RND", 0xF000, 0xC000, 1⟩,
   ⟨"DRW", 0xF000, 0xD000, 1⟩, ⟨"SKP", 0xF0FF, 0xE09E, 1⟩, ⟨"SKNP", 0xF0FF, 0xE0A1, 1⟩]

/-- Rows of family F, and the catch-all behind every row. -/
def opRowsHigh : List OpRow :=
  [⟨"LD_VX_DT", 0xF0FF, 0xF007, 1⟩, ⟨"LD_VX_K", 0xF0FF, 0xF00A, 1⟩, ⟨"LD_DT_VX", 0xF0FF, 0xF015, 1⟩,
   ⟨"LD_ST_VX", 0xF0FF, 0xF018, 1⟩, ⟨"ADD_I", 0xF0FF, 0xF01E, 1⟩, ⟨"LD_F", 0xF0FF, 0xF029, 1⟩,
   ⟨"LD_B", 0xF0FF, 0xF033, 1⟩, ⟨"LD_MEM_VX", 0xF0FF, 0xF055, 1⟩, ⟨"LD_VX_MEM", 0xF0FF, 0xF065, 1⟩,
   ⟨"UNRECOGNIZED", 0x0000, 0x0000, 9⟩]

/-- The 36 rows. -/
def opcodeTable : List OpRow := opRowsLow ++ opRowsAlu ++ opRowsMid ++ opRowsHigh

/-- `(op & mask) = match`. -/
def OpRow.hits (r : OpRow) (op : Word) : Bool := op &&& r.mask == r.pattern

/-- The row's `name` of an instruction in spec/opcode_table.json. -/
def rowName : Instr → String
  | .sys _ => "SYS" | .cls => "CLS" | .ret => "RET" | .jp _ => "JP" | .call _ => "CALL"
  | .seImm _ _ => "SE_IMM" | .sneImm _ _ => "SNE_IMM" | .seReg _ _ => "SE_REG" | .ldImm _ _ => "LD_IMM"
  | .addImm _ _ => "ADD_IMM" | .ldReg _ _ => "LD_REG" | .orReg _ _ => "OR" | .andReg _ _ => "AND"
  | .xorReg _ _ => "XOR" | .addReg _ _ => "ADD_REG" | .sub _ _ => "SUB" | .shr _ => "SHR" | .subn _ _ => "SUBN"
  | .shl _ => "SHL" | .sneReg _ _ => "SNE_REG" | .ldI _ => "LD_I" | .jpV0 _ => "JP_V0" | .rnd _ _ => "RND"
  | .drw _ _ _ => "DRW" | .skp _ => "SKP" | .sknp _ => "SKNP" | .ldVxDt _ => "LD_VX_DT" | .ldVxK _ => "LD_VX_K"
  | .ldDtVx _ => "LD_DT_VX" | .ldStVx _ => "LD_ST_VX" | .addI _ => "ADD_I" | .ldF _ => "LD_F" | .ldB _ => "LD_B"
  | .ldMemVx _ => "LD_MEM_VX" | .ldVxMem _ => "LD_VX_MEM" | .unrecognized _ => "UNRECOGNIZED"

/-! ### The assembler notation (R57, R58, D21): for reading, "none of these has any meaning to the hardware" -/

/-- One hexadecimal digit. -/
def hexDigit (k : Nat) : String :=
  match k % 16 with
  | 0 => "0" | 1 => "1" | 2 => "2" | 3 => "3" | 4 => "4" | 5 => "5" | 6 => "6" | 7 => "7"
  | 8 => "8" | 9 => "9" | 10 => "A" | 11 => "B" | 12 => "C" | 13 => "D" | 14 => "E" | _ => "F"

/-- The lowest `digits` hexadecimal digits of a number. -/
def hexDigits (k : Nat) : Nat → String
  | 0 => ""
  | n + 1 => hexDigits (k / 16) n ++ hexDigit k

/-- `kk`, with the prefix of R57. -/
def asmByte (kk : Byte) : String := "0x" ++ hexDigits kk.toNat 2
/-- `nnn`. -/
def asmAddr (nnn : BitVec 12) : String := "0x" ++ hexDigits nnn.toNat 3
/-- `Vx`. -/
def asmReg (x : Reg) : String := "V" ++ hexDigit x.val

/-- Mnemonic, then a register and another operand. -/
def asmReg2 (mnemonic : String) (x : Reg) (operand : String) : String := mnemonic ++ " " ++ asmReg x ++ ", " ++ operand
/-- Mnemonic, then a fixed word and a register. -/
def asmFixed (mnemonic word : String) (x : Reg) : String := mnemonic ++ " " ++ word ++ ", " ++ asmReg x

/-- One line of R57's notation, the operand order destination first; an unrecognized word is written with R58's `DW`. -/
def assembly : Instr → String
  | .sys nnn => "SYS " ++ asmAddr nnn
  | .cls => "CLS"
  | .ret => "RET"
  | .jp nnn => "JP " ++ asmAddr nnn
  | .call nnn => "CALL " ++ asmAddr nnn
  | .seImm x kk => asmReg2 "SE" x (asmByte kk)
  | .sneImm x kk => asmReg2 "SNE" x (asmByte kk)
  | .seReg x y => asmReg2 "SE" x (asmReg y)
  | .ldImm x kk => asmReg2 "LD" x (asmByte kk)
  | .addImm x kk => asmReg2 "ADD" x (asmByte kk)
  | .ldReg x y => asmReg2 "LD" x (asmReg y)
  | .orReg x y => asmReg2 "OR" x (asmReg y)
  | .andReg x y => asmReg2 "AND" x (asmReg y)
  | .xorReg x y => asmReg2 "XOR" x (asmReg y)
  | .addReg x y => asmReg2 "ADD" x (asmReg y)
  | .sub x y => asmReg2 "SUB" x (asmReg y)
  | .shr x => "SHR " ++ asmReg x
  | .subn x y => asmReg2 "SUBN" x (asmReg y)
  | .shl x => "SHL " ++ asmReg x
  | .sneReg x y => asmReg2 "SNE" x (asmReg y)
  | .ldI nnn => "LD I, " ++ asmAddr nnn
  | .jpV0 nnn => "JP V0, " ++ asmAddr nnn
  | .rnd x kk => asmReg2 "RND" x (asmByte kk)
  | .drw x y n => asmReg2 "DRW" x (asmReg y ++ ", 0x" ++ hexDigit n.val)
  | .skp x => "SKP " ++ asmReg x
  | .sknp x => "SKNP " ++ asmReg x
  | .ldVxDt x => asmReg2 "LD" x "DT"
  | .ldVxK x => asmReg2 "LD" x "K"
  | .ldDtVx x => asmFixed "LD" "DT" x
  | .ldStVx x => asmFixed "LD" "ST" x
  | .addI x => asmFixed "ADD" "I" x
  | .ldF x => asmFixed "LD" "F" x
  | .ldB x => asmFixed "LD" "B" x
  | .ldMemVx x => asmFixed "LD" "[I]" x
  | .ldVxMem x => asmReg2 "LD" x "[I]"
  | .unrecognized op => "DW 0x" ++ hexDigits op.toNat 4

/-! ### The host's numbering of table words -/

/-- The instruction word whose table bits are the low `nbits` bits of `w`, every bit above them 0. The words of this machine
are 16 bits, so bit k of the table is bit k of `op`. -/
def tableWord (nbits w : Nat) : Word := BitVec.ofNat 16 (w % 2 ^ min nbits 16)

/-- What the decoder reads from the two bytes of that word, laid out as memory holds them, high byte first (R34). -/
def decodeTableWord (nbits w : Nat) : Option Instr :=
  let b := bytesOfWord (tableWord nbits w)
  match decodeBytes [b.1, b.2] with
  | .ok (i, _) => some i
  | .error _ => none

end Sys2Proof
end

