-- ==== Sys2Proof/Config.lean ====
section
/-!
DEFINITION. What an implementation fixes: the named parameters of R7 (and FONT of D6), each with every value the
spec gives it, and the one free value of the spec, the byte that RND draws.
-/
namespace Sys2Proof

/-- `OOB_MODE` (R7, R33, D8): what an access at an address above 0xFFF does. -/
inductive OobMode where
  | fault
  | wrap12
  deriving DecidableEq, Repr

/-- `CXKK_MODE` (R7, R93, D4): whether family C is RND or is ignored. -/
inductive CxkkMode where
  | rnd
  | ignore
  deriving DecidableEq, Repr

/-- `ALU_ALIAS_MODE` (R7, R80, D9 and its annex): the order of the two register writes of a flag-writing instruction. -/
inductive AluAliasMode where
  | sequential
  | latchedResultLast
  | latchedFlagLast
  deriving DecidableEq, Repr

/-- The parameters of one machine. R7: "A model takes each as a configuration argument"; FONT is a parameter by D6 and U20.
A machine's parameters never change; State carries them so that `exec` and `step` can read them (log 1). -/
structure Config where
  oob      : OobMode
  cxkk     : CxkkMode
  aluAlias : AluAliasMode
  font     : Vector Byte 80
  deriving DecidableEq, Repr

/-- `draw8()` (R6, R93, D20): the byte of the n-th RND execution, a free value. "No claim may assume anything about the
distribution or about two draws being different or equal": the constant has no body, so nothing can be proved of it (log 2). -/
opaque Config.draw8 : Nat → Byte

end Sys2Proof
end

