-- ==== Sys2Proof/Machine/Parameters.lean ====
section
/-!
DEFINITION. The default parameters of a machine: the spec's decisions D4, D6, D8, D9, and the standard font table (R147).
-/
namespace Sys2Proof.Machine

/-- One glyph: 5 bytes, row 0 first (R147). -/
def glyph (r0 r1 r2 r3 r4 : Byte) : Vector Byte 5 := #v[r0, r1, r2, r3, r4]

/-- `FONT[0..79]` of R147, the glyphs of the digits 0 to F. The bytes are the spec's decision D6, which takes them from
general knowledge (log 5). -/
def standardFont : Vector Byte 80 :=
  (glyph 0xF0 0x90 0x90 0x90 0xF0 ++ glyph 0x20 0x60 0x20 0x20 0x70) ++
  (glyph 0xF0 0x10 0xF0 0x80 0xF0 ++ glyph 0xF0 0x10 0xF0 0x10 0xF0) ++
  (glyph 0x90 0x90 0xF0 0x10 0x10 ++ glyph 0xF0 0x80 0xF0 0x10 0xF0) ++
  (glyph 0xF0 0x80 0xF0 0x90 0xF0 ++ glyph 0xF0 0x10 0x20 0x40 0x40) ++
  (glyph 0xF0 0x90 0xF0 0x90 0xF0 ++ glyph 0xF0 0x90 0xF0 0x10 0xF0) ++
  (glyph 0xF0 0x90 0xF0 0x90 0x90 ++ glyph 0xE0 0x90 0xE0 0x90 0xE0) ++
  (glyph 0xF0 0x80 0x80 0x80 0xF0 ++ glyph 0xE0 0x90 0x90 0x90 0xE0) ++
  (glyph 0xF0 0x80 0xF0 0x80 0xF0 ++ glyph 0xF0 0x80 0xF0 0x80 0x80)

/-- The default of every parameter (R7). -/
def defaultConfig : Config where
  oob      := .fault
  cxkk     := .rnd
  aluAlias := .sequential
  font     := standardFont

end Sys2Proof.Machine
end

