-- ==== Sys2Proof/Machine/State.lean ====
section
/-!
DEFINITION. The state of one machine: the ten components of R10 and the model's own three fields; the faults and refusals;
the state after reset (R146).
-/
namespace Sys2Proof.Machine

/-- Memory as the list of the bytes that differ from the reset contents, addresses strictly rising (`Memory.wf`, log 4). -/
abbrev Memory := List Host.Cell

/-- 32 rows of 64 cells; `true` is the cell value 1 (R20, D18). -/
abbrev Framebuffer := Vector (Vector Bool 64) 32

/-- The kind of an access that faults (R124, R125). -/
inductive AccessKind where
  | fetch
  | dataRead
  | dataWrite
  deriving DecidableEq, Repr

/-- How a step stops with a fault. -/
inductive Fault where
  /-- `AddrFault(kind, addr)` (R124): under `OOB_MODE = fault`, a cycle would access memory above 0xFFF; `addr` is the lowest
  offending effective address. Raised by every cycle (fetch), Fx65 and Dxyn (dataRead), Fx33 and Fx55 (dataWrite).
  Safe: the machine stops and no successor state is claimed. -/
  | addrFault (kind : AccessKind) (addr : Nat)
  deriving DecidableEq, Repr

/-- How a step is refused. -/
inductive Refusal where
  /-- An instruction without a meaning, by its mnemonic. Raised by no arm of `exec`: every instruction has its meaning. Safe. -/
  | notModelled (mnemonic : String)
  /-- `set_key` with an index above 15, outside the operation's contract: "a model refuses it" (R138, D14). Raised by the
  host operation `setKey` only. Safe: nothing is claimed of such a call. -/
  | keyIndexOutsideContract (index : Nat)
  deriving DecidableEq, Repr

/-- The six operations of the interface (R4). -/
inductive Operation where
  /-- The reset operation of R146. -/
  | initializeMachine
  /-- `load_program(bytes)` (R148). -/
  | loadProgram (bytes : List Byte)
  /-- `run_cycle()` (R60). -/
  | runCycle
  /-- `tick_timers()` (R134). -/
  | tickTimers
  /-- `set_key(index, pressed)` (R138). -/
  | setKey (index : Nat) (pressed : Bool)
  /-- `framebuffer_view()` (R139). -/
  | framebufferView
  deriving DecidableEq, Repr

/-- The machine. The first ten fields are the complete architectural state (R10); `config`, `draws` and `schedule` are the
model's own: the parameters of the machine, the number of RND draws made, and the operations the host has decided on and
that are not performed yet, oldest first (logs 1, 2, 3). -/
structure State where
  v        : Vector Byte 16
  i        : Word
  pc       : Word
  stack    : Vector Word 16
  sp       : Fin 17
  dt       : Byte
  st       : Byte
  fb       : Framebuffer
  key      : Vector Bool 16
  mem      : Memory
  config   : Config
  draws    : Nat
  schedule : List Operation
  deriving DecidableEq, Repr

/-- The state after the reset operation (R146; table in section 10 of 10_state.md), with the default parameters. -/
def State.reset : State where
  v        := Vector.replicate 16 0
  i        := 0x0000
  pc       := 0x0200
  stack    := Vector.replicate 16 0
  sp       := 0
  dt       := 0
  st       := 0
  fb       := Vector.replicate 32 (Vector.replicate 64 false)
  key      := Vector.replicate 16 false
  mem      := []
  config   := defaultConfig
  draws    := 0
  schedule := []

end Sys2Proof.Machine
end

