-- ==== Sys2Proof/Machine/Memory.lean ====
section
/-!
DEFINITION. The 4096 bytes of memory (R22, R30): one read, one write, the canonical form.
-/
namespace Sys2Proof.Machine

/-- What a byte that nothing has written reads as: the reset contents, the font at 0x050 to 0x09F and 0 elsewhere (R31, R146). -/
def resetByte (a : Nat) : Byte :=
  if 0x050 ≤ a ∧ a < 0x0A0 then standardFont.toList.getD (a - 0x050) 0 else 0

/-- `MEM[a]`. -/
def Memory.read : Memory → Nat → Byte
  | [], a => resetByte a
  | (b, v) :: rest, a => if b = a then v else Memory.read rest a

/-- The list with `v` at `a` in front of cells above `a`; nothing is listed when `v` is the reset byte of `a`. -/
def Memory.cons (a : Nat) (v : Byte) (m : Memory) : Memory :=
  if v = resetByte a then m else (a, v) :: m

/-- `MEM[a] <- v`, keeping the canonical form. -/
def Memory.write : Memory → Nat → Byte → Memory
  | [], a, v => Memory.cons a v []
  | (b, w) :: rest, a, v =>
    if a < b then Memory.cons a v ((b, w) :: rest)
    else if a = b then Memory.cons a v rest
    else (b, w) :: Memory.write rest a v

/-- Writes a list of bytes at ascending addresses (R148). -/
def Memory.writeList (m : Memory) (base : Nat) : List Byte → Memory
  | [] => m
  | v :: rest => Memory.writeList (m.write base v) (base + 1) rest

/-- Every cell of the list lies above `a`, by its first address. -/
def Memory.above (a : Nat) : Memory → Bool
  | [] => true
  | (b, _) :: _ => decide (a < b)

/-- The canonical form: addresses below 4096 and strictly rising, no cell equal to its reset byte (log 4). -/
def Memory.wf : Memory → Bool
  | [] => true
  | (a, v) :: rest => decide (a < 4096) && v != resetByte a && Memory.above a rest && Memory.wf rest

end Sys2Proof.Machine
end

