-- ==== Sys2Proof/Machine/Ops.lean ====
section
/-!
DEFINITION. The named operations over the state: registers, memory through the checks of R33, the fetch, the advance, the
call stack, and ending a cycle with `AddrFault` (R124), the only exception of this machine.
-/
namespace Sys2Proof.Machine

/-! ### Registers and other fields (R8, R11, R13 to R21) -/

/-- `V[x]`. -/
def State.reg (s : State) (x : Reg) : Byte := s.v[x.val]

/-- `V[x] <- b`. No register is hardwired (R11). -/
def State.setReg (s : State) (x : Reg) (b : Byte) : State := { s with v := s.v.set x.val b x.isLt }

/-- `I <- w`. -/
def State.setI (s : State) (w : Word) : State := { s with i := w }

/-- `pc <- w`: neither masked nor aligned (R14, R79). -/
def State.setPc (s : State) (w : Word) : State := { s with pc := w }

/-- `STACK[k] <- w`. -/
def State.setSlot (s : State) (k : Fin 16) (w : Word) : State := { s with stack := s.stack.set k.val w k.isLt }

/-- `SP <- k`. -/
def State.setSp (s : State) (k : Fin 17) : State := { s with sp := k }

/-- `DT <- b`. -/
def State.setDt (s : State) (b : Byte) : State := { s with dt := b }

/-- `ST <- b`. -/
def State.setSt (s : State) (b : Byte) : State := { s with st := b }

/-- The framebuffer replaced. -/
def State.setFb (s : State) (fb : Framebuffer) : State := { s with fb := fb }

/-- `KEY[k] <- pressed`. -/
def State.setKey (s : State) (k : Fin 16) (pressed : Bool) : State := { s with key := s.key.set k.val pressed k.isLt }

/-- The memory replaced. -/
def State.setMem (s : State) (m : Memory) : State := { s with mem := m }

/-- One more RND draw made (log 2). -/
def State.countDraw (s : State) : State := { s with draws := s.draws + 1 }

/-- The operations still to perform replaced (log 3). -/
def State.setSchedule (s : State) (ops : List Operation) : State := { s with schedule := ops }

/-! ### Memory accesses (R32, R33) -/

/-- The cell an effective address reaches: `addr mod 4096`. Under `wrap12` that is R33's rule; under `fault` every address
that gets here has passed the check of `accessFault`, so it is below 4096 and is itself (log 7). -/
def cellOf (addr : Nat) : Nat := addr % 4096

/-- `MemRead(addr, 1)` after the check. -/
def State.byteAt (s : State) (addr : Nat) : Byte := s.mem.read (cellOf addr)

/-- `MemWrite(addr, 1, b)` after the check. -/
def State.setByte (s : State) (addr : Nat) (b : Byte) : State := s.setMem (s.mem.write (cellOf addr) b)

/-- The lowest of the effective addresses `base + k`, `k < len`, that is above 0xFFF; `k` ascends (R128). -/
def firstOutside (base : Nat) : Nat → Option Nat
  | 0 => none
  | n + 1 =>
    match firstOutside base n with
    | some a => some a
    | none => if base + n > 0xFFF then some (base + n) else none

/-- The fault that an access of `len` bytes at `base` raises: under `wrap12` none exists (R33, R124). -/
def accessFault (s : State) (kind : AccessKind) (base len : Nat) : Option Fault :=
  match s.config.oob with
  | .wrap12 => none
  | .fault => (firstOutside base len).map (Fault.addrFault kind)

/-- `raise AddrFault` or go on: every effective address is checked before any state changes, and a faulting cycle has no
successor state (R33, R124, R128, R129). The one shared operation of this machine's one exception; no return from it exists
(R130). -/
def checkedAccess (s : State) (kind : AccessKind) (base len : Nat) (run : State → State) :
    Host.Outcome State Fault Refusal :=
  match accessFault s kind base len with
  | some f => .fault f
  | none => .next (run s)

/-- `MemWrite(base + k, 1, bytes k)` for `k < len`, ascending. -/
def storeBytes (s : State) (base : Nat) (bytes : Nat → Byte) : Nat → State
  | 0 => s
  | n + 1 => (storeBytes s base bytes n).setByte (base + n) (bytes n)

/-- `V[k] <- MemRead(base + k, 1)` for `k < len`, ascending (R102); `len` is at most 16. -/
def loadRegs (s : State) (base : Nat) : Nat → State
  | 0 => s
  | n + 1 => (loadRegs s base n).setReg (Fin.ofNat 16 n) (s.byteAt (base + n))

/-! ### The cycle's own steps (R61, R62, R77) -/

/-- `Fetch16(PC)` after the check (R34, R61). -/
def fetchWord (s : State) : Word := wordOfBytes (s.byteAt s.pc.toNat) (s.byteAt (s.pc.toNat + 1))

/-- The fault of the fetch, if `PC` or `PC + 1` is above 0xFFF under `OOB_MODE = fault` (R61, R124). -/
def fetchFault (s : State) : Option Fault := accessFault s .fetch s.pc.toNat 2

/-- `pc <- (pc0 + 2) mod 65536` (R62). -/
def advance (s : State) : State := s.setPc (s.pc + 2)

/-- The skip rule: 2 more when the condition holds (R77). -/
def skipIf (cond : Bool) (s : State) : State := if cond then s.setPc (s.pc + 2) else s

/-! ### The call stack (R16, R17) -/

/-- Push `PC` and go to `target`, or nothing when the stack is full (R72). -/
def pushAndJump (target : Word) (s : State) : State :=
  if h : s.sp.val < 16 then
    ((s.setSlot ⟨s.sp.val, h⟩ s.pc).setSp ⟨s.sp.val + 1, Nat.succ_lt_succ h⟩).setPc target
  else s

/-- Pop into `PC`, or nothing when the stack is empty; the slot keeps its value (R17, R70). -/
def popAndJump (s : State) : State :=
  if h : 0 < s.sp.val then
    (s.setSp ⟨s.sp.val - 1, by omega⟩).setPc (s.stack[s.sp.val - 1]'(by omega))
  else s

end Sys2Proof.Machine
end

