-- ==== Sys2Proof/Machine/Flags.lean ====
section
/-!
DEFINITION. The flag computations (R12, R81) and the write of a flag and a result in the order of `ALU_ALIAS_MODE`
(R80, D9 and its annex).
-/
namespace Sys2Proof.Machine

/-- A flag as the byte VF holds. -/
def flagByte (b : Bool) : Byte := if b then 1 else 0

/-- Carry out of `a + b`: 1 exactly when the exact sum exceeds 255 (R81, R88). -/
def carryFlag (a b : Byte) : Byte := flagByte (decide (a.toNat + b.toNat > 255))

/-- Not borrow of `a - b`: 1 exactly when `a >= b` (R81, R89). -/
def notBorrowFlag (a b : Byte) : Byte := flagByte (decide (a.toNat ≥ b.toNat))

/-- Bit 0 before a right shift (R91). -/
def lowBitFlag (a : Byte) : Byte := a &&& 1

/-- Bit 7 before a left shift (R92). -/
def highBitFlag (a : Byte) : Byte := (a >>> 7) &&& 1

/-- `V[15] <- flag` and `V[x] <- result`, both computed from `a` and `b` beforehand: the flag first, but in
`latched_flag_last` (D9 annex). The order of 8xy4 in every mode, whose sum is formed before either write (R88). -/
def writeLatched (s : State) (x : Reg) (flag result : Byte) : State :=
  match s.config.aluAlias with
  | .sequential | .latchedResultLast => (s.setReg vf flag).setReg x result
  | .latchedFlagLast => (s.setReg x result).setReg vf flag

/-- The flag and the result of an instruction whose second statement reads its operands again (R89 to R92): under
`sequential` the result is computed from the registers as the flag write left them. -/
def writeInOrder (s : State) (x y : Reg) (flag result : Byte → Byte → Byte) : State :=
  match s.config.aluAlias with
  | .sequential =>
    let s' := s.setReg vf (flag (s.reg x) (s.reg y))
    s'.setReg x (result (s'.reg x) (s'.reg y))
  | .latchedResultLast | .latchedFlagLast =>
    writeLatched s x (flag (s.reg x) (s.reg y)) (result (s.reg x) (s.reg y))

end Sys2Proof.Machine
end

