-- ==== Sys2Proof/Machine/Alu.lean ====
section
/-!
DEFINITION. Register arithmetic and logic (42_alu.md). 8-bit arithmetic wraps (R81).
-/
namespace Sys2Proof.Machine

/-- `LD Vx, kk` (R82). -/
def execLdImm (x : Reg) (kk : Byte) (s : State) : Host.Outcome State Fault Refusal := .next (s.setReg x kk)

/-- `ADD Vx, kk` (R83): no flag. -/
def execAddImm (x : Reg) (kk : Byte) (s : State) : Host.Outcome State Fault Refusal := .next (s.setReg x (s.reg x + kk))

/-- `LD Vx, Vy` (R84). -/
def execLdReg (x y : Reg) (s : State) : Host.Outcome State Fault Refusal := .next (s.setReg x (s.reg y))

/-- `OR Vx, Vy` (R85). -/
def execOrReg (x y : Reg) (s : State) : Host.Outcome State Fault Refusal := .next (s.setReg x (s.reg x ||| s.reg y))

/-- `AND Vx, Vy` (R86). -/
def execAndReg (x y : Reg) (s : State) : Host.Outcome State Fault Refusal := .next (s.setReg x (s.reg x &&& s.reg y))

/-- `XOR Vx, Vy` (R87). -/
def execXorReg (x y : Reg) (s : State) : Host.Outcome State Fault Refusal := .next (s.setReg x (s.reg x ^^^ s.reg y))

/-- `ADD Vx, Vy` (R88): the sum is formed once, before either write. -/
def execAddReg (x y : Reg) (s : State) : Host.Outcome State Fault Refusal :=
  .next (writeLatched s x (carryFlag (s.reg x) (s.reg y)) (s.reg x + s.reg y))

/-- `SUB Vx, Vy` (R89). -/
def execSub (x y : Reg) (s : State) : Host.Outcome State Fault Refusal :=
  .next (writeInOrder s x y (fun a b => notBorrowFlag a b) (fun a b => a - b))

/-- `SUBN Vx, Vy` (R90). -/
def execSubn (x y : Reg) (s : State) : Host.Outcome State Fault Refusal :=
  .next (writeInOrder s x y (fun a b => notBorrowFlag b a) (fun a b => b - a))

/-- `SHR Vx` (R91): `V[y]` is neither read nor written. -/
def execShr (x : Reg) (s : State) : Host.Outcome State Fault Refusal :=
  .next (writeInOrder s x x (fun a _ => lowBitFlag a) (fun a _ => a >>> 1))

/-- `SHL Vx` (R92). -/
def execShl (x : Reg) (s : State) : Host.Outcome State Fault Refusal :=
  .next (writeInOrder s x x (fun a _ => highBitFlag a) (fun a _ => a <<< 1))

/-- `RND Vx, kk` (R93): a free byte under `rnd`, nothing under `ignore` (D4, D20). -/
def execRnd (x : Reg) (kk : Byte) (s : State) : Host.Outcome State Fault Refusal :=
  match s.config.cxkk with
  | .rnd => .next ((s.setReg x (Config.draw8 s.draws &&& kk)).countDraw)
  | .ignore => .next s

end Sys2Proof.Machine
end

