-- ==== Sys2Proof/Machine/Operands.lean ====
section
/-!
DEFINITION. The operand forms: immediates used at face value (R48), the low nibble of a register as a key or glyph number,
the font address, the BCD digits, the anchor of a sprite.
-/
namespace Sys2Proof.Machine

/-- `zext_16(nnn)` (R48). -/
def zext12 (nnn : BitVec 12) : Word := nnn.setWidth 16

/-- `zext_16(b)` of a register value (R78, R97). -/
def zext8 (b : Byte) : Word := b.setWidth 16

/-- `b & 0x0F` as an index 0 to 15 (R98, R106). -/
def lowNibble (b : Byte) : Fin 16 := (b.extractLsb' 0 4).toFin

/-- `0x050 + (V[x] & 0x0F) * 5` (R98). -/
def fontAddress (b : Byte) : Word := BitVec.ofNat 16 (0x050 + (lowNibble b).val * 5)

/-- Digit `k` of the decimal expansion of `b`: hundreds, tens, units (R99, D22). -/
def bcdDigit (b : Byte) : Nat → Byte
  | 0 => BitVec.ofNat 8 (b.toNat / 100)
  | 1 => BitVec.ofNat 8 (b.toNat / 10 % 10)
  | _ => BitVec.ofNat 8 (b.toNat % 10)

/-- `V[x] mod 64`, the anchor column (R117). -/
def anchorColumn (s : State) (x : Reg) : Nat := (s.reg x).toNat % 64

/-- `V[y] mod 32`, the anchor row (R117). -/
def anchorRow (s : State) (y : Reg) : Nat := (s.reg y).toNat % 32

/-- `KEY[V[x] & 0x0F]` (R106, R107). -/
def keyOf (s : State) (x : Reg) : Bool := s.key[(lowNibble (s.reg x)).val]

/-- The lowest pressed key among the first `n` (R109: "scan keypad indices 0–15 in ascending order"). -/
def firstPressed (s : State) : Nat → Option (Fin 16)
  | 0 => none
  | n + 1 =>
    match firstPressed s n with
    | some k => some k
    | none => if s.key[(Fin.ofNat 16 n).val] then some (Fin.ofNat 16 n) else none

end Sys2Proof.Machine
end

