-- ==== Sys2Proof/Machine/Control.lean ====
section
/-!
DEFINITION. Control transfer (41_control_flow.md). On entry `pc` is already advanced (R62).
-/
namespace Sys2Proof.Machine

/-- `RET` (R70). -/
def execRet (s : State) : Host.Outcome State Fault Refusal := .next (popAndJump s)

/-- `JP nnn` (R71). -/
def execJp (nnn : BitVec 12) (s : State) : Host.Outcome State Fault Refusal := .next (s.setPc (zext12 nnn))

/-- `CALL nnn` (R72). -/
def execCall (nnn : BitVec 12) (s : State) : Host.Outcome State Fault Refusal := .next (pushAndJump (zext12 nnn) s)

/-- `SE Vx, kk` (R73). -/
def execSeImm (x : Reg) (kk : Byte) (s : State) : Host.Outcome State Fault Refusal := .next (skipIf (s.reg x == kk) s)

/-- `SNE Vx, kk` (R74). -/
def execSneImm (x : Reg) (kk : Byte) (s : State) : Host.Outcome State Fault Refusal := .next (skipIf (s.reg x != kk) s)

/-- `SE Vx, Vy` (R75). -/
def execSeReg (x y : Reg) (s : State) : Host.Outcome State Fault Refusal := .next (skipIf (s.reg x == s.reg y) s)

/-- `SNE Vx, Vy` (R76). -/
def execSneReg (x y : Reg) (s : State) : Host.Outcome State Fault Refusal := .next (skipIf (s.reg x != s.reg y) s)

/-- `JP V0, nnn` (R78): the sum is not reduced to 12 bits. -/
def execJpV0 (nnn : BitVec 12) (s : State) : Host.Outcome State Fault Refusal :=
  .next (s.setPc (zext8 (s.reg 0) + zext12 nnn))

end Sys2Proof.Machine
end

