-- ==== Sys2Proof/Machine/Display.lean ====
section
/-!
DEFINITION. The display instructions (45_display.md): CLS, and DRW as its two loops, rows outside, columns inside (R117).
-/
namespace Sys2Proof.Machine

/-- `FB[r][c]`. -/
def Framebuffer.cell (fb : Framebuffer) (r : Fin 32) (c : Fin 64) : Bool := fb[r.val][c.val]

/-- `FB[r][c] <- FB[r][c] ^ 1`. -/
def Framebuffer.toggle (fb : Framebuffer) (r : Fin 32) (c : Fin 64) : Framebuffer :=
  fb.set r.val (fb[r.val].set c.val (!fb[r.val][c.val]) c.isLt) r.isLt

/-- Every cell 0 (R116). -/
def clearScreen : Framebuffer := Vector.replicate 32 (Vector.replicate 64 false)

/-- One sprite bit that is 1 at row `r`, column `c`: the collision, then the toggle. The pair is the framebuffer and
"a collision has happened". -/
def drawPixel (r : Fin 32) (c : Fin 64) (d : Framebuffer × Bool) : Framebuffer × Bool :=
  (d.1.toggle r c, d.2 || d.1.cell r c)

/-- Sprite column `c` of a row byte is bit `7 - c` (R119, D7; log 9). -/
def spriteBit (b : Byte) (c : Nat) : Bool := b.getLsbD (7 - c)

/-- The first `n` columns of sprite row `r`, anchored at column `ax`, row `ay`; each position wraps by itself (R117). -/
def drawColumns (b : Byte) (ax ay r : Nat) (d : Framebuffer × Bool) : Nat → Framebuffer × Bool
  | 0 => d
  | n + 1 =>
    match drawColumns b ax ay r d n with
    | (fb, hit) => if spriteBit b n then drawPixel (Fin.ofNat 32 (ay + r)) (Fin.ofNat 64 (ax + n)) (fb, hit) else (fb, hit)

/-- The first `n` sprite rows; `bytes r` is sprite row `r` (R117). -/
def drawRows (bytes : Nat → Byte) (ax ay : Nat) (d : Framebuffer × Bool) : Nat → Framebuffer × Bool
  | 0 => d
  | n + 1 => drawColumns (bytes n) ax ay n (drawRows bytes ax ay d n) 8

/-- The whole draw after the address check: the anchor is read before VF is written (D28). -/
def drawSprite (x y : Reg) (n : Nat) (s : State) : State :=
  let d := drawRows (fun r => s.byteAt (s.i.toNat + r)) (anchorColumn s x) (anchorRow s y) (s.fb, false) n
  (s.setReg vf (flagByte d.2)).setFb d.1

/-- `CLS` (R116). -/
def execCls (s : State) : Host.Outcome State Fault Refusal := .next (s.setFb clearScreen)

/-- `DRW Vx, Vy, n` (R117). -/
def execDrw (x y : Reg) (n : Fin 16) (s : State) : Host.Outcome State Fault Refusal :=
  checkedAccess s .dataRead s.i.toNat n.val (drawSprite x y n.val)

end Sys2Proof.Machine
end

