-- ==== Sys2Proof/Machine/Ignored.lean ====
section
/-!
DEFINITION. SYS and the unrecognized words: nothing but the cycle's advance (R65, R66, D5).
-/
namespace Sys2Proof.Machine

/-- `SYS nnn` (R66). -/
def execSys (_nnn : BitVec 12) (s : State) : Host.Outcome State Fault Refusal := .next s

/-- `UNRECOGNIZED` (R65): "silently ignored — no error, no state change beyond the pc advance". -/
def execUnrecognized (_op : Word) (s : State) : Host.Outcome State Fault Refusal := .next s

end Sys2Proof.Machine
end

