-- ==== Sys2Proof/Machine/IndexMemory.lean ====
section
/-!
DEFINITION. The index register and the memory accesses through it (43_index_memory.md). `I` is changed by none of the
accesses (R100).
-/
namespace Sys2Proof.Machine

/-- `LD I, nnn` (R96). -/
def execLdI (nnn : BitVec 12) (s : State) : Host.Outcome State Fault Refusal := .next (s.setI (zext12 nnn))

/-- `ADD I, Vx` (R97): modulo 65536, no flag. -/
def execAddI (x : Reg) (s : State) : Host.Outcome State Fault Refusal := .next (s.setI (s.i + zext8 (s.reg x)))

/-- `LD F, Vx` (R98). -/
def execLdF (x : Reg) (s : State) : Host.Outcome State Fault Refusal := .next (s.setI (fontAddress (s.reg x)))

/-- `LD B, Vx` (R99): hundreds, tens, units at I, I + 1, I + 2. -/
def execLdB (x : Reg) (s : State) : Host.Outcome State Fault Refusal :=
  checkedAccess s .dataWrite s.i.toNat 3 (fun s => storeBytes s s.i.toNat (bcdDigit (s.reg x)) 3)

/-- `LD [I], Vx` (R101): V0 to Vx at I to I + x. -/
def execLdMemVx (x : Reg) (s : State) : Host.Outcome State Fault Refusal :=
  checkedAccess s .dataWrite s.i.toNat (x.val + 1)
    (fun s => storeBytes s s.i.toNat (fun k => s.reg (Fin.ofNat 16 k)) (x.val + 1))

/-- `LD Vx, [I]` (R102): V0 to Vx from I to I + x. -/
def execLdVxMem (x : Reg) (s : State) : Host.Outcome State Fault Refusal :=
  checkedAccess s .dataRead s.i.toNat (x.val + 1) (fun s => loadRegs s s.i.toNat (x.val + 1))

end Sys2Proof.Machine
end

