-- ==== Sys2Proof/Machine/KeypadTimers.lean ====
section
/-!
DEFINITION. The keypad and timer instructions (44_keypad_timers.md).
-/
namespace Sys2Proof.Machine

/-- `SKP Vx` (R106). -/
def execSkp (x : Reg) (s : State) : Host.Outcome State Fault Refusal := .next (skipIf (keyOf s x) s)

/-- `SKNP Vx` (R107). -/
def execSknp (x : Reg) (s : State) : Host.Outcome State Fault Refusal := .next (skipIf (!keyOf s x) s)

/-- `LD Vx, DT` (R108). -/
def execLdVxDt (x : Reg) (s : State) : Host.Outcome State Fault Refusal := .next (s.setReg x s.dt)

/-- `LD Vx, K` (R109): the lowest pressed key, or the advance undone so that the next cycle tries again. -/
def execLdVxK (x : Reg) (s : State) : Host.Outcome State Fault Refusal :=
  match firstPressed s 16 with
  | some k => .next (s.setReg x (BitVec.ofNat 8 k.val))
  | none => .next (s.setPc (s.pc - 2))

/-- `LD DT, Vx` (R110). -/
def execLdDtVx (x : Reg) (s : State) : Host.Outcome State Fault Refusal := .next (s.setDt (s.reg x))

/-- `LD ST, Vx` (R111). -/
def execLdStVx (x : Reg) (s : State) : Host.Outcome State Fault Refusal := .next (s.setSt (s.reg x))

end Sys2Proof.Machine
end

