-- ==== Sys2Proof/Machine/HostOps.lean ====
section
/-!
DEFINITION. The operations of the host and of the timer clock (R4): the reset operation, load_program, tick_timers, set_key,
framebuffer_view, and the host's reads of the timers.
-/
namespace Sys2Proof.Machine

/-- The memory after the reset operation: 0 everywhere, then FONT written at 0x050 (R146). With the standard font this is the
empty list, since the reset contents are what an unlisted address reads as. -/
def fontMemory (font : Vector Byte 80) : Memory := Memory.writeList [] 0x050 font.toList

/-- The reset operation of R146 and R152, on a machine with the parameters of `s`: all ten components at their reset
values. The machine's parameters, the draws made and the operations to come are not state of the machine and stay (log 10). -/
def initializeMachine (s : State) : State :=
  { State.reset with mem := fontMemory s.config.font, config := s.config, draws := s.draws, schedule := s.schedule }

/-- The one error of `load_program` (R123). -/
inductive LoadError where
  | romTooLarge
  deriving DecidableEq, Repr

/-- `load_program(bytes)` (R148): "a full read-or-reject contract". -/
def loadProgram (bytes : List Byte) (s : State) : Except LoadError State :=
  if bytes.length > 3584 then .error .romTooLarge
  else .ok (s.setMem (s.mem.writeList 0x200 bytes))

/-- One timer's tick: one less, and never below 0 (R134). -/
def tickDown (t : Byte) : Byte := if t.toNat > 0 then t - 1 else t

/-- `tick_timers()` (R134). -/
def tickTimers (s : State) : State := (s.setDt (tickDown s.dt)).setSt (tickDown s.st)

/-- `set_key(index, pressed)`, refused outside 0 to 15 (R138, D14). -/
def setKeyAt (index : Nat) (pressed : Bool) (s : State) : Host.Outcome State Fault Refusal :=
  if h : index < 16 then .next (s.setKey ⟨index, h⟩ pressed) else .refused (.keyIndexOutsideContract index)

/-- The result of `framebuffer_view()`: the 2048 cells in row-major order, element `y*64 + x` is `FB[y][x]` (R139). -/
def framebufferCells (s : State) : List Bool := s.fb.toList.flatMap Vector.toList

/-- `sound_active = (ST != 0)` (R135). -/
def soundActive (s : State) : Bool := s.st != 0

/-- The host's read of DT (R136). -/
def readDelayTimer (s : State) : Byte := s.dt

/-- The host's read of ST (R136). -/
def readSoundTimer (s : State) : Byte := s.st

end Sys2Proof.Machine
end

