-- ==== Sys2Proof/Machine/Cycle.lean ====
section
/-!
DEFINITION. `run_cycle` (R60), and the transition of each of the six operations (R4, R5).
-/
namespace Sys2Proof.Machine

/-- `run_cycle()` (R60): fetch, advance, decode, execute. -/
def runCycle (s : State) : Host.Outcome State Fault Refusal :=
  match fetchFault s with
  | some f => .fault f
  | none => exec (decode (fetchWord s)) (advance s)

/-- One operation as one atomic transition (R5). A rejected load leaves the state untouched (R148; log 11), a view changes
nothing (R139). -/
def perform (op : Operation) (s : State) : Host.Outcome State Fault Refusal :=
  match op with
  | .initializeMachine => .next (initializeMachine s)
  | .loadProgram bytes =>
    match loadProgram bytes s with
    | .ok t => .next t
    | .error .romTooLarge => .next s
  | .runCycle => runCycle s
  | .tickTimers => .next (tickTimers s)
  | .setKey index pressed => setKeyAt index pressed s
  | .framebufferView => .next s

/-- The next transition: the oldest operation the host has decided on, and a cycle when there is none (log 3). -/
def performNext (s : State) : Host.Outcome State Fault Refusal :=
  match s.schedule with
  | [] => runCycle s
  | op :: rest => perform op (s.setSchedule rest)

/-- Where the next cycle fetches: `PC`, or the entry point 0x200 where a fetch at `PC` would fault (log 13). -/
def fetchPlace (s : State) : Word := if (fetchFault s).isSome then 0x0200 else s.pc

/-- The word `op` stored where the next cycle fetches, with that cycle as the next operation. -/
def placeWord (s : State) (op : Word) : State :=
  let a := fetchPlace s
  (((s.setSchedule []).setPc a).setByte a.toNat (bytesOfWord op).1).setByte (a.toNat + 1) (bytesOfWord op).2

end Sys2Proof.Machine
end

