-- ==== Sys2Proof/Machine/Step.lean ====
section
/-!
DEFINITION. The step of the machine, and the placing of one instruction word where the next step fetches it.
-/
namespace Sys2Proof.Machine

/-- One step: one operation of the interface, a `run_cycle` unless the host has decided on another (R5, R60; log 3). -/
def step (s : State) : Host.Outcome State Fault Refusal := performNext s

/-- `s` with the instruction word of the table's bits `w` stored where the next step fetches (log 13). -/
def State.withFetchWord (s : State) (nbits w : Nat) : State := placeWord s (tableWord nbits w)

end Sys2Proof.Machine
end

