-- ==== Sys2Proof/Machine/Schedule.lean ====
section
/-!
DEFINITION. The schedule as a parameter of a run: "any finite or infinite sequence of the operations of rule R4" (R6, R7, D10,
D17), and a run: the state after the last completed operation, and the stop that the run stands at, if it stands at one (R124,
R130, R162). A step takes the finite prefixes of a schedule from State (log 3).
-/
namespace Sys2Proof.Machine

/-! ### Schedules -/

/-- A schedule: a finite or an infinite sequence of operations, the first to perform first. A parameter of a run and no part of
State, so it may be a function. -/
inductive Schedule where
  | finite (ops : List Operation)
  | infinite (ops : Nat → Operation)

/-- The operation at place `n`, if the schedule has one. -/
def Schedule.operation : Schedule → Nat → Option Operation
  | .finite ops, n => ops[n]?
  | .infinite ops, n => some (ops n)

/-! ### Runs -/

/-- Why an operation has no successor state. -/
inductive Stop where
  | fault (f : Fault)
  | refused (q : Refusal)
  deriving DecidableEq, Repr

/-- A run: "the final state is the state after the last completed operation" (R162), and the stop of the operation after it, if that
operation had no successor state. The stop is no bit of the machine: it is an outcome of a transition (R124). -/
structure Run where
  state : State
  stop  : Option Stop
  deriving DecidableEq, Repr

/-- The run that has just completed an operation in state `s`. -/
def runningAt (s : State) : Run := ⟨s, none⟩

/-- A run as the outcome of its latest operation. -/
def Run.outcome (r : Run) : Host.Outcome State Fault Refusal :=
  match r.stop with
  | none => .next r.state
  | some (.fault f) => .fault f
  | some (.refused q) => .refused q

/-- The run after a transition from `s` with the outcome given: a faulting cycle changes nothing (R129). -/
def runFrom (s : State) : Host.Outcome State Fault Refusal → Run
  | .next t => ⟨t, none⟩
  | .fault f => ⟨s, some (.fault f)⟩
  | .refused q => ⟨s, some (.refused q)⟩

/-- One operation at a run that stands at a stop: the initialization produces the reset state, which it does from any state, and every
other operation leaves the run where it stands (R124, R130, U11; log 23). -/
def performStopped (op : Operation) (r : Run) : Run :=
  match op with
  | .initializeMachine => runningAt (initializeMachine r.state)
  | .loadProgram _ | .runCycle | .tickTimers | .setKey _ _ | .framebufferView => r

/-- One operation of a schedule at a run (R5, R130). -/
def performOn (op : Operation) (r : Run) : Run :=
  match r.stop with
  | none => runFrom r.state (perform op r.state)
  | some _ => performStopped op r

/-- The run of the first `n` operations of a schedule from `s`, one atomic transition each, in their order (R5). Past the end of a
finite schedule nothing happens. -/
def Schedule.runAfter (sched : Schedule) (s : State) : Nat → Run
  | 0 => runningAt s
  | n + 1 => (sched.operation n).elim (sched.runAfter s n) (fun op => performOn op (sched.runAfter s n))

/-- The outcome of the first `n` operations of a schedule from `s`. -/
def Schedule.stateAfter (sched : Schedule) (s : State) (n : Nat) : Host.Outcome State Fault Refusal :=
  (sched.runAfter s n).outcome

/-! ### The same by steps: the operations stand in State (log 3) -/

/-- The state with its oldest waiting operation taken off. -/
def dropOperation (s : State) : State := s.setSchedule s.schedule.tail

/-- One step of a run. A step that stops has used up its operation; at a stop the oldest waiting operation is met as `performStopped`
says, and without one nothing happens. -/
def stepRun (r : Run) : Run :=
  match r.stop with
  | none => runFrom (dropOperation r.state) (step r.state)
  | some _ => r.state.schedule.head?.elim r (fun op => performStopped op ⟨dropOperation r.state, r.stop⟩)

/-- `n` steps of a run. -/
def stepRunTimes : Nat → Run → Run
  | 0, r => r
  | n + 1, r => stepRunTimes n (stepRun r)

end Sys2Proof.Machine
end

