-- ==== Sys2Proof/Safety.lean ====
section
/-!
DEFINITION. The terms claims are stated in: the invariant of the state, the frame of a transition, which memory an
instruction accesses and when the access is in range, reachable states and safe runs.
-/
namespace Sys2Proof.Machine

/-! ### The invariant -/

/-- What every step keeps: the memory is in its canonical form (addresses below 4096, strictly rising, no cell equal to its
reset byte), so equal memories are equal lists (log 4). The other bounds of R10 are in the types of the fields. -/
def StateInv (s : State) : Prop := s.mem.wf = true

/-! ### The frame of a transition -/

/-- The parts of the state that are neither V registers nor memory bytes. -/
inductive Part where
  | i
  | pc
  | stack
  | sp
  | dt
  | st
  | fb
  | key
  | draws
  | schedule
  deriving DecidableEq, Repr

/-- From `s` to `t` nothing changes but the named registers, the named parts and the bytes at the named memory addresses.
The machine's parameters never change. -/
structure SameExcept (regs : List Reg) (parts : List Part) (stored : List Nat) (s t : State) : Prop where
  v        : ∀ r, r ∉ regs → t.reg r = s.reg r
  i        : Part.i ∉ parts → t.i = s.i
  pc       : Part.pc ∉ parts → t.pc = s.pc
  stack    : Part.stack ∉ parts → t.stack = s.stack
  sp       : Part.sp ∉ parts → t.sp = s.sp
  dt       : Part.dt ∉ parts → t.dt = s.dt
  st       : Part.st ∉ parts → t.st = s.st
  fb       : Part.fb ∉ parts → t.fb = s.fb
  key      : Part.key ∉ parts → t.key = s.key
  draws    : Part.draws ∉ parts → t.draws = s.draws
  schedule : Part.schedule ∉ parts → t.schedule = s.schedule
  mem      : ∀ a, a ∉ stored → t.mem.read a = s.mem.read a
  config   : t.config = s.config

/-- The memory cells of `len` bytes at effective address `base`, lowest effective address first (R32, R33). -/
def cellsOf (base len : Nat) : List Nat := (List.range len).map (fun k => cellOf (base + k))

/-! ### Memory accesses (R32, R36, R124) -/

/-- The data access of an instruction: its kind, its first effective address and its length in bytes; none for an
instruction that accesses no memory (R36). -/
def dataAccess (i : Instr) (s : State) : Option (AccessKind × Nat × Nat) :=
  match i with
  | .ldB _ => some (.dataWrite, s.i.toNat, 3)
  | .ldMemVx x => some (.dataWrite, s.i.toNat, x.val + 1)
  | .ldVxMem x => some (.dataRead, s.i.toNat, x.val + 1)
  | .drw _ _ n => some (.dataRead, s.i.toNat, n.val)
  | .sys _ | .cls | .ret | .jp _ | .call _ | .seImm _ _ | .sneImm _ _ | .seReg _ _ | .ldImm _ _ | .addImm _ _ | .ldReg _ _
  | .orReg _ _ | .andReg _ _ | .xorReg _ _ | .addReg _ _ | .sub _ _ | .shr _ | .subn _ _ | .shl _ | .sneReg _ _
  | .ldI _ | .jpV0 _ | .rnd _ _ | .skp _ | .sknp _ | .ldVxDt _ | .ldVxK _ | .ldDtVx _ | .ldStVx _
  | .addI _ | .ldF _ | .unrecognized _ => none

/-- No byte of the access is above 0xFFF, or the machine wraps such addresses (R33). -/
def InRange (s : State) (base len : Nat) : Prop :=
  s.config.oob = .wrap12 ∨ len = 0 ∨ base + len ≤ 4096

/-- The lowest offending address of R124's table: the base itself when it is above 0xFFF, else 0x1000. -/
def offendingAddr (base : Nat) : Nat := if base > 0xFFF then base else 0x1000

/-- The next transition is a cycle, after which `rest` is still to perform: no operation is waiting, or the oldest one is
`run_cycle` (R4, R60; log 3). -/
def CycleIsNext (s : State) (rest : List Operation) : Prop :=
  (s.schedule = [] ∧ rest = []) ∨ s.schedule = .runCycle :: rest

/-- The fetch at `PC` is in range and fetches the word `w`: the byte at `PC` is `w[15:8]`, the byte at `PC + 1` is `w[7:0]`
(R34, R61). -/
def WordAtPc (s : State) (w : Nat) : Prop :=
  InRange s s.pc.toNat 2 ∧ (s.byteAt s.pc.toNat).toNat = w / 256 ∧ (s.byteAt (s.pc.toNat + 1)).toNat = w % 256

/-! ### Runs -/

/-- `t` is reached from `s` by steps that all answer a next state. -/
inductive Reaches (s : State) : State → Prop where
  | refl : Reaches s s
  | step {t u : State} : Reaches s t → Machine.step t = .next u → Reaches s u

/-- A safe run: no state reached faults or is refused (R124: a fault means "the run is over and failed"). -/
def Safe (s : State) : Prop := ∀ t, Reaches s t → ∃ u, step t = .next u

/-- Ticks keep arriving: the one assumption a liveness claim may add about a schedule (R134, D17). -/
def Schedule.TicksKeepArriving (ops : Schedule) : Prop := ∀ n, ∃ m, n ≤ m ∧ ops.operation m = some .tickTimers

/-! ### Silent drops, as predicates over the transition (R126, D27) -/

/-- This word is ignored: no case of its family takes it (R65, R66). -/
def wordIgnored (i : Instr) : Prop := (∃ nnn, i = .sys nnn) ∨ ∃ op, i = .unrecognized op

/-- This `CALL` is dropped: the stack is full (R72). -/
def callDropped (i : Instr) (s : State) : Prop := (∃ nnn, i = .call nnn) ∧ s.sp.val = 16

/-- This `RET` is dropped: the stack is empty (R70). -/
def returnDropped (i : Instr) (s : State) : Prop := i = .ret ∧ s.sp.val = 0

end Sys2Proof.Machine
end

