-- ==== Sys2Proof/Certificates/Slice0/Obligations.lean ====
section
/-!
DEFINITION. The statements for the provers. The terms they share come first; each statement's docstring says which rule of
spec/ it formalises.
-/
namespace Sys2Proof.Claims
open Sys2Proof.Machine

/-- A condition as the number 1 or 0. -/
def bit01 (p : Prop) [Decidable p] : Nat := if p then 1 else 0

/-- `(a - b) mod 256` (R81). -/
def diff8 (a b : Nat) : Nat := (a + 256 - b) % 256

/-- The words of R54: no row of their family has a matching selector. -/
def UnmatchedWord (w : Nat) : Prop :=
  (w / 4096 = 0x0 ∧ w % 256 ≠ 0xE0 ∧ w % 256 ≠ 0xEE) ∨
  (w / 4096 = 0x8 ∧ w % 16 ∈ [0x8, 0x9, 0xA, 0xB, 0xC, 0xD, 0xF]) ∨
  (w / 4096 = 0xE ∧ w % 256 ≠ 0x9E ∧ w % 256 ≠ 0xA1) ∨
  (w / 4096 = 0xF ∧ w % 256 ∉ [0x07, 0x0A, 0x15, 0x18, 0x1E, 0x29, 0x33, 0x55, 0x65])

/-- The sprite of `DRW Vx, Vy, n` has a bit that is 1 on cell (row `r`, column `c`): the cell lies `dr` rows below and `dc`
columns right of the anchor, both distances taken around the edges, and bit `7 - dc` of sprite byte `dr` is 1 (R117, R119). -/
def SpriteCovers (s : State) (x y : Reg) (n : Fin 16) (r : Fin 32) (c : Fin 64) : Prop :=
  let dr := (r.val + 32 - (s.reg y).toNat % 32) % 32
  let dc := (c.val + 64 - (s.reg x).toNat % 64) % 64
  dr < n.val ∧ dc < 8 ∧ (s.byteAt (s.i.toNat + dr)).toNat.testBit (7 - dc) = true

/-- A skip whose condition holds (R73 to R77, R106, R107). -/
def SkipTaken (i : Instr) (s : State) : Prop :=
  (∃ x kk, (i = .seImm x kk ∧ s.reg x = kk) ∨ (i = .sneImm x kk ∧ s.reg x ≠ kk)) ∨
  (∃ x y, (i = .seReg x y ∧ s.reg x = s.reg y) ∨ (i = .sneReg x y ∧ s.reg x ≠ s.reg y)) ∨
  (∃ x, ∃ k : Fin 16, k.val = (s.reg x).toNat % 16 ∧
    ((i = .skp x ∧ s.key[k.val] = true) ∨ (i = .sknp x ∧ s.key[k.val] = false)))

/-- A wait for a key with no key down (R109). -/
def WaitsForKey (i : Instr) (s : State) : Prop := (∃ x, i = .ldVxK x) ∧ ∀ j : Fin 16, s.key[j.val] = false

/-- A jump, a call with room on the stack, or a return from a stack that is not empty, with its target (R70, R71, R72, R78). -/
def TransfersTo (i : Instr) (s : State) (target : Nat) : Prop :=
  (∃ nnn, i = .jp nnn ∧ target = nnn.toNat) ∨
  (∃ nnn, i = .call nnn ∧ s.sp.val < 16 ∧ target = nnn.toNat) ∨
  (∃ nnn, i = .jpV0 nnn ∧ target = (s.reg 0).toNat + nnn.toNat) ∨
  (∃ k : Fin 16, i = .ret ∧ s.sp.val = k.val + 1 ∧ target = s.stack[k.val].toNat)

/-- The V registers an instruction names as its destination (R11); VF as a side effect is not among them. -/
def Destination (i : Instr) (r : Reg) : Prop :=
  (∃ kk, i = .ldImm r kk ∨ i = .addImm r kk ∨ i = .rnd r kk) ∨
  (∃ y, i = .ldReg r y ∨ i = .orReg r y ∨ i = .andReg r y ∨ i = .xorReg r y ∨ i = .addReg r y ∨ i = .sub r y ∨ i = .subn r y) ∨
  i = .shr r ∨ i = .shl r ∨ i = .ldVxDt r ∨ i = .ldVxK r ∨ (∃ x, i = .ldVxMem x ∧ r.val ≤ x.val)

/-- The instructions that write VF as a side effect (R12). -/
def WritesFlag (i : Instr) : Prop :=
  (∃ x y, i = .addReg x y ∨ i = .sub x y ∨ i = .subn x y) ∨ (∃ x, i = .shr x ∨ i = .shl x) ∨ (∃ x y n, i = .drw x y n)

/-- The two states agree but for stack slots at or above `SP` (R17, D12). -/
def SameButStaleSlots (s s' : State) : Prop :=
  s' = { s with stack := s'.stack } ∧ ∀ k : Fin 16, k.val < s.sp.val → s'.stack[k.val] = s.stack[k.val]

/-- The two states agree but for the sound timer. -/
def SameButSoundTimer (s s' : State) : Prop := s' = { s with st := s'.st }

/-- The table of R147, the glyphs of the digits 0 to F, row 0 first (the bytes are the spec's decision D6, log 5). -/
def glyphRows : List (List Byte) :=
  [[0xF0, 0x90, 0x90, 0x90, 0xF0], [0x20, 0x60, 0x20, 0x20, 0x70], [0xF0, 0x10, 0xF0, 0x80, 0xF0],
   [0xF0, 0x10, 0xF0, 0x10, 0xF0], [0x90, 0x90, 0xF0, 0x10, 0x10], [0xF0, 0x80, 0xF0, 0x10, 0xF0],
   [0xF0, 0x80, 0xF0, 0x90, 0xF0], [0xF0, 0x10, 0x20, 0x40, 0x40]] ++
  [[0xF0, 0x90, 0xF0, 0x90, 0xF0], [0xF0, 0x90, 0xF0, 0x10, 0xF0], [0xF0, 0x90, 0xF0, 0x90, 0x90],
   [0xE0, 0x90, 0xE0, 0x90, 0xE0], [0xF0, 0x80, 0x80, 0x80, 0xF0], [0xE0, 0x90, 0x90, 0x90, 0xE0],
   [0xF0, 0x80, 0xF0, 0x80, 0xF0], [0xF0, 0x80, 0xF0, 0x80, 0x80]]

/-- All ten components of the machine are as the initialization leaves them (R146), with the font of the machine's parameters. -/
def AtResetValues (t : State) : Prop :=
  (∀ r, t.reg r = 0) ∧ t.i = 0 ∧ t.pc = 0x0200 ∧ (∀ k : Fin 16, t.stack[k.val] = 0) ∧ t.sp.val = 0 ∧ t.dt = 0 ∧ t.st = 0 ∧
    (∀ r c, t.fb.cell r c = false) ∧ (∀ k : Fin 16, t.key[k.val] = false) ∧
    (∀ j : Fin 80, t.mem.read (0x050 + j.val) = t.config.font[j.val]) ∧ (∀ a, a < 0x050 ∨ 0x0A0 ≤ a → t.mem.read a = 0)

/-- The operations the host may interleave while the program runs (R150 (4)), a key index inside the contract of R138. -/
def RunningOperation (op : Operation) : Prop :=
  op = .runCycle ∨ op = .tickTimers ∨ op = .framebufferView ∨ ∃ k pressed, k < 16 ∧ op = .setKey k pressed

/-- Two outcomes of the same kind, with related next states, the same fault or the same refusal. -/
def SameOutcome (rel : State → State → Prop) : Host.Outcome State Fault Refusal → Host.Outcome State Fault Refusal → Prop
  | .next t, .next t' => rel t t'
  | .fault f, .fault f' => f = f'
  | .refused q, .refused q' => q = q'
  | _, _ => False

end Sys2Proof.Claims

open Sys2Proof Sys2Proof.Machine Sys2Proof.Claims

/-! ### Encoding -/

/-- One word of every family, written out from the patterns of R51, decodes to its instruction. The opcode numbers are the
spec's decision D1 (log 5). -/
def Obligations.SampleWordsDecode : Prop :=
  decode 0x0123 = .sys 0x123 ∧ decode 0x00E0 = .cls ∧ decode 0x00EE = .ret ∧ decode 0x1ABC = .jp 0xABC ∧
  decode 0x2A60 = .call 0xA60 ∧ decode 0x3F01 = .seImm 15 0x01 ∧ decode 0x4311 = .sneImm 3 0x11 ∧ decode 0x5120 = .seReg 1 2 ∧
  decode 0x602A = .ldImm 0 0x2A ∧ decode 0x7F01 = .addImm 15 0x01 ∧ decode 0x81F5 = .sub 1 15 ∧ decode 0x81A6 = .shr 1 ∧
  decode 0x9120 = .sneReg 1 2 ∧ decode 0xA300 = .ldI 0x300 ∧ decode 0xBFFF = .jpV0 0xFFF ∧ decode 0xC10F = .rnd 1 0x0F ∧
  decode 0xD015 = .drw 0 1 5 ∧ decode 0xE09E = .skp 0 ∧ decode 0xF50A = .ldVxK 5 ∧ decode 0xF155 = .ldMemVx 1 ∧
  decode 0x8008 = .unrecognized 0x8008

/-- Every well-formed instruction is what its own word decodes to, for all operands (R46, R47, R51). -/
def Obligations.DecodeAfterEncode : Prop := ∀ i : Instr, WellFormed i → decode (encode i) = i

/-- Every word decodes to a well-formed instruction whose word is the given one with the don't-care bits of R52 at 0. -/
def Obligations.EncodeAfterDecode : Prop :=
  ∀ op : Word, WellFormed (decode op) ∧ encode (decode op) = op &&& careMask (decode op)

/-- The decoder selects the row R53 selects: the word matches it, and every other row the word matches has a larger priority
number. -/
def Obligations.DecodeSelectsTableRow : Prop :=
  ∀ op : Word, ∃ r ∈ opcodeTable, r.name = rowName (decode op) ∧ r.hits op = true ∧
    ∀ q ∈ opcodeTable, q.hits op = true → q ≠ r → r.priority < q.priority

/-- The words that decode to SYS or UNRECOGNIZED are exactly the words R54 lists. -/
def Obligations.UnmatchedWordsAreExactlyThoseListed : Prop :=
  ∀ w : Nat, w < 65536 →
    (((∃ nnn, decode (BitVec.ofNat 16 w) = .sys nnn) ∨ (∃ op, decode (BitVec.ofNat 16 w) = .unrecognized op)) ↔ UnmatchedWord w)

/-! ### The cycle -/

/-- R60 to R64: a step whose operation is `run_cycle`, waiting as the oldest or taken because none waits, fetches the word at `PC`,
high byte first, advances by 2 and executes what the word decodes to (the schedule is the model's own field, log 3). -/
def Obligations.StepRunsDecodedInstruction : Prop :=
  (∀ (s : State) (rest : List Operation) (i : Instr), CycleIsNext s rest → InRange s s.pc.toNat 2 →
    decodeBytes [s.byteAt s.pc.toNat, s.byteAt (s.pc.toNat + 1)] = .ok (i, []) →
    WellFormed i ∧ step s = exec i { s with pc := s.pc + 2, schedule := rest }) ∧
  (∀ (s : State) (rest : List Operation) (w : Nat), CycleIsNext s rest → WordAtPc s w →
    step s = exec (decode (BitVec.ofNat 16 w)) { s with pc := s.pc + 2, schedule := rest })

/-- A fetch with `PC` above 0xFFE faults under `OOB_MODE = fault`, reporting `PC`, or 0x1000 when only `PC + 1` is outside. That
such an access faults is the spec's decision D8 (log 7). -/
def Obligations.FetchOutsideMemoryFaults : Prop :=
  ∀ (s : State) (rest : List Operation), CycleIsNext s rest → s.config.oob = .fault → s.pc.toNat > 0xFFE →
    step s = .fault (.addrFault .fetch (if s.pc.toNat > 0xFFF then s.pc.toNat else 0x1000))

/-- The word placed by `withFetchWord` is the one the next step runs, and the placing changes nothing else (log 13). -/
def Obligations.PlacedWordRunsNext : Prop :=
  ∀ (s : State) (w : Nat), StateInv s → w < 65536 →
    (let t := s.withFetchWord 16 w
     t.schedule = [] ∧ WordAtPc t w ∧ step t = exec (decode (BitVec.ofNat 16 w)) { t with pc := t.pc + 2 } ∧
     SameExcept [] [.pc, .schedule] (cellsOf t.pc.toNat 2) s t ∧ (InRange s s.pc.toNat 2 → t.pc = s.pc))

/-- R65, R66: SYS and the unrecognized words change nothing beyond the advance of `PC`. Which words these are rests on the spec's
decisions D1 and D5 (logs 5, 19). -/
def Obligations.IgnoredWordsOnlyAdvance : Prop :=
  (∀ (nnn : BitVec 12) (s : State), exec (.sys nnn) s = .next s) ∧
  (∀ (op : Word) (s : State), exec (.unrecognized op) s = .next s) ∧
  (∀ (s : State) (rest : List Operation) (w : Nat), UnmatchedWord w → CycleIsNext s rest → WordAtPc s w →
    step s = .next { s with pc := s.pc + 2, schedule := rest })

/-! ### Control transfer -/

/-- R70: RET pops into `PC`, or with an empty stack does nothing. That the popped slot keeps its value, as the frame says, is the
spec's decision D12 (log 15). -/
def Obligations.ReturnPopsOrIsDropped : Prop :=
  ∀ s : State, ∃ t, exec .ret s = .next t ∧
    (s.sp.val = 0 → t = s) ∧
    (∀ k : Fin 16, s.sp.val = k.val + 1 → t.sp.val = k.val ∧ t.pc = s.stack[k.val] ∧ SameExcept [] [.pc, .sp] [] s t)

/-- R71, R78: the jumps write `PC`. That the indexed sum is not reduced to 12 bits is the spec's decision D23 (log 12). -/
def Obligations.JumpsSetPc : Prop :=
  ∀ (nnn : BitVec 12) (s : State),
    (∃ t, exec (.jp nnn) s = .next t ∧ t.pc.toNat = nnn.toNat ∧ SameExcept [] [.pc] [] s t) ∧
    (∃ t, exec (.jpV0 nnn) s = .next t ∧ t.pc.toNat = (s.reg 0).toNat + nnn.toNat ∧ SameExcept [] [.pc] [] s t)

/-- R72: CALL pushes the advanced `PC` and jumps, or with a full stack does nothing. -/
def Obligations.CallPushesOrIsDropped : Prop :=
  ∀ (nnn : BitVec 12) (s : State), ∃ t, exec (.call nnn) s = .next t ∧
    (s.sp.val = 16 → t = s) ∧
    (∀ k : Fin 16, s.sp.val = k.val →
      t.sp.val = k.val + 1 ∧ t.stack[k.val] = s.pc ∧ t.pc.toNat = nnn.toNat ∧
      (∀ j : Fin 16, j ≠ k → t.stack[j.val] = s.stack[j.val]) ∧ SameExcept [] [.pc, .sp, .stack] [] s t)

/-- R70 with R72: a RET directly after a CALL that was not dropped comes back to the instruction after the CALL, with the stack
pointer as before. -/
def Obligations.ReturnUndoesCall : Prop :=
  ∀ (nnn : BitVec 12) (s : State), s.sp.val < 16 →
    ∃ t u, exec (.call nnn) s = .next t ∧ exec .ret t = .next u ∧ u.pc = s.pc ∧ u.sp = s.sp ∧ SameExcept [] [.stack] [] s u

/-- R73, R74: the skips against an immediate. -/
def Obligations.SkipsAgainstImmediate : Prop :=
  ∀ (x : Reg) (kk : Byte) (s : State),
    (∃ t, exec (.seImm x kk) s = .next t ∧
      t.pc.toNat = (s.pc.toNat + if (s.reg x).toNat = kk.toNat then 2 else 0) % 65536 ∧ SameExcept [] [.pc] [] s t) ∧
    (∃ t, exec (.sneImm x kk) s = .next t ∧
      t.pc.toNat = (s.pc.toNat + if (s.reg x).toNat = kk.toNat then 0 else 2) % 65536 ∧ SameExcept [] [.pc] [] s t)

/-- R75, R76: the skips between two registers. -/
def Obligations.SkipsBetweenRegisters : Prop :=
  ∀ (x y : Reg) (s : State),
    (∃ t, exec (.seReg x y) s = .next t ∧
      t.pc.toNat = (s.pc.toNat + if (s.reg x).toNat = (s.reg y).toNat then 2 else 0) % 65536 ∧ SameExcept [] [.pc] [] s t) ∧
    (∃ t, exec (.sneReg x y) s = .next t ∧
      t.pc.toNat = (s.pc.toNat + if (s.reg x).toNat = (s.reg y).toNat then 0 else 2) % 65536 ∧ SameExcept [] [.pc] [] s t)

/-- R106, R107: the key skips test the key named by the low nibble of `V[x]`. -/
def Obligations.SkipsOnKeys : Prop :=
  ∀ (x : Reg) (s : State) (k : Fin 16), k.val = (s.reg x).toNat % 16 →
    (∃ t, exec (.skp x) s = .next t ∧
      t.pc.toNat = (s.pc.toNat + if s.key[k.val] = true then 2 else 0) % 65536 ∧ SameExcept [] [.pc] [] s t) ∧
    (∃ t, exec (.sknp x) s = .next t ∧
      t.pc.toNat = (s.pc.toNat + if s.key[k.val] = true then 0 else 2) % 65536 ∧ SameExcept [] [.pc] [] s t)

/-! ### Arithmetic and logic -/

/-- R82, R83: load and add an immediate; the add wraps and writes no flag. -/
def Obligations.LoadAndAddImmediate : Prop :=
  ∀ (x : Reg) (kk : Byte) (s : State),
    (∃ t, exec (.ldImm x kk) s = .next t ∧ t.reg x = kk ∧ SameExcept [x] [] [] s t) ∧
    (∃ t, exec (.addImm x kk) s = .next t ∧ (t.reg x).toNat = ((s.reg x).toNat + kk.toNat) % 256 ∧ SameExcept [x] [] [] s t)

/-- R84 to R87: copy, OR, AND, XOR, bit by bit; VF is touched only as the destination. -/
def Obligations.CopyAndBitwiseLogic : Prop :=
  ∀ (x y : Reg) (s : State),
    (∃ t, exec (.ldReg x y) s = .next t ∧ t.reg x = s.reg y ∧ SameExcept [x] [] [] s t) ∧
    (∃ t, exec (.orReg x y) s = .next t ∧
      (∀ k, (t.reg x).getLsbD k = ((s.reg x).getLsbD k || (s.reg y).getLsbD k)) ∧ SameExcept [x] [] [] s t) ∧
    (∃ t, exec (.andReg x y) s = .next t ∧
      (∀ k, (t.reg x).getLsbD k = ((s.reg x).getLsbD k && (s.reg y).getLsbD k)) ∧ SameExcept [x] [] [] s t) ∧
    (∃ t, exec (.xorReg x y) s = .next t ∧
      (∀ k, (t.reg x).getLsbD k = ((s.reg x).getLsbD k ^^ (s.reg y).getLsbD k)) ∧ SameExcept [x] [] [] s t)

/-- R88 and the annex to D9: the sum modulo 256 and the carry, with VF as an operand in every `ALU_ALIAS_MODE` (log 8). -/
def Obligations.AddWithCarry : Prop :=
  ∀ (x y : Reg) (s : State),
    let a := (s.reg x).toNat
    let b := (s.reg y).toNat
    ∃ t, exec (.addReg x y) s = .next t ∧ SameExcept [x, vf] [] [] s t ∧
      (x ≠ vf → (t.reg x).toNat = (a + b) % 256 ∧ (t.reg vf).toNat = bit01 (a + b > 255)) ∧
      (x = vf → (t.reg vf).toNat =
        if s.config.aluAlias = .latchedFlagLast then bit01 (a + b > 255) else (a + b) % 256)

/-- R89 and the annex to D9: the wrapped difference and not-borrow, in every case of the annex's table (log 8). -/
def Obligations.SubtractWithNotBorrow : Prop :=
  ∀ (x y : Reg) (s : State),
    let a := (s.reg x).toNat
    let b := (s.reg y).toNat
    let f := bit01 (a ≥ b)
    ∃ t, exec (.sub x y) s = .next t ∧ SameExcept [x, vf] [] [] s t ∧
      (x ≠ vf → y ≠ vf → (t.reg x).toNat = diff8 a b ∧ (t.reg vf).toNat = f) ∧
      (x ≠ vf → y = vf → (t.reg vf).toNat = f ∧
        (t.reg x).toNat = if s.config.aluAlias = .sequential then diff8 a f else diff8 a b) ∧
      (x = vf → y ≠ vf → (t.reg vf).toNat = match s.config.aluAlias with
        | .sequential => diff8 f b
        | .latchedResultLast => diff8 a b
        | .latchedFlagLast => f) ∧
      (x = vf → y = vf → (t.reg vf).toNat = bit01 (s.config.aluAlias = .latchedFlagLast))

/-- R90 and the annex to D9: the reverse difference and its not-borrow, in every case of the annex's table (log 8). -/
def Obligations.ReverseSubtractWithNotBorrow : Prop :=
  ∀ (x y : Reg) (s : State),
    let a := (s.reg x).toNat
    let b := (s.reg y).toNat
    let f := bit01 (b ≥ a)
    ∃ t, exec (.subn x y) s = .next t ∧ SameExcept [x, vf] [] [] s t ∧
      (x ≠ vf → y ≠ vf → (t.reg x).toNat = diff8 b a ∧ (t.reg vf).toNat = f) ∧
      (x ≠ vf → y = vf → (t.reg vf).toNat = f ∧
        (t.reg x).toNat = if s.config.aluAlias = .sequential then diff8 f a else diff8 b a) ∧
      (x = vf → y ≠ vf → (t.reg vf).toNat = match s.config.aluAlias with
        | .sequential => diff8 b f
        | .latchedResultLast => diff8 b a
        | .latchedFlagLast => f) ∧
      (x = vf → y = vf → (t.reg vf).toNat = bit01 (s.config.aluAlias = .latchedFlagLast))

/-- R91 and the annex to D9: the halved value and the bit shifted out, for SHR on any register (log 8). -/
def Obligations.ShiftRightCapturesLowBit : Prop :=
  ∀ (x : Reg) (s : State),
    let a := (s.reg x).toNat
    ∃ t, exec (.shr x) s = .next t ∧ SameExcept [x, vf] [] [] s t ∧
      (x ≠ vf → (t.reg x).toNat = a / 2 ∧ (t.reg vf).toNat = a % 2) ∧
      (x = vf → (t.reg vf).toNat = match s.config.aluAlias with
        | .sequential => 0
        | .latchedResultLast => a / 2
        | .latchedFlagLast => a % 2)

/-- R92 and the annex to D9: the doubled value modulo 256 and the bit shifted out, for SHL on any register (log 8). -/
def Obligations.ShiftLeftCapturesHighBit : Prop :=
  ∀ (x : Reg) (s : State),
    let a := (s.reg x).toNat
    ∃ t, exec (.shl x) s = .next t ∧ SameExcept [x, vf] [] [] s t ∧
      (x ≠ vf → (t.reg x).toNat = 2 * a % 256 ∧ (t.reg vf).toNat = a / 128) ∧
      (x = vf → (t.reg vf).toNat = match s.config.aluAlias with
        | .sequential => 2 * (a / 128)
        | .latchedResultLast => 2 * a % 256
        | .latchedFlagLast => a / 128)

/-- RND: under `CXKK_MODE = rnd` the drawn byte masked by `kk`, whatever byte is drawn; under `ignore` nothing. The meaning of
family C is the spec's decision D4, from general knowledge (log 2). -/
def Obligations.RandomDrawIsMasked : Prop :=
  ∀ (x : Reg) (kk : Byte) (s : State),
    (s.config.cxkk = .rnd → ∃ t, exec (.rnd x kk) s = .next t ∧ SameExcept [x] [.draws] [] s t ∧ t.draws = s.draws + 1 ∧
      (∀ k, (t.reg x).getLsbD k = ((Config.draw8 s.draws).getLsbD k && kk.getLsbD k)) ∧ (kk = 0 → t.reg x = 0)) ∧
    (s.config.cxkk = .ignore → exec (.rnd x kk) s = .next s)

/-! ### The index register and memory -/

/-- R96, R98: the index load and the font address. -/
def Obligations.IndexLoadAndFontAddress : Prop :=
  ∀ (nnn : BitVec 12) (x : Reg) (s : State),
    (∃ t, exec (.ldI nnn) s = .next t ∧ t.i.toNat = nnn.toNat ∧ SameExcept [] [.i] [] s t) ∧
    (∃ t, exec (.ldF x) s = .next t ∧ t.i.toNat = 0x050 + (s.reg x).toNat % 16 * 5 ∧ SameExcept [] [.i] [] s t)

/-- R97: the index add wraps modulo 65536, never at 0x1000, and writes no flag. The modulus is the spec's decision D23 (log 12). -/
def Obligations.IndexAddWrapsAt16Bits : Prop :=
  ∀ (x : Reg) (s : State), ∃ t, exec (.addI x) s = .next t ∧
    t.i.toNat = (s.i.toNat + (s.reg x).toNat) % 65536 ∧ SameExcept [] [.i] [] s t

/-- R99: the decimal digits of `V[x]` at I, I + 1, I + 2 (the formulas are the spec's decision D22, log 12); nothing else changes. -/
def Obligations.BcdStoreWritesDigits : Prop :=
  ∀ (x : Reg) (s : State), InRange s s.i.toNat 3 → ∃ t, exec (.ldB x) s = .next t ∧
    SameExcept [] [] (cellsOf s.i.toNat 3) s t ∧
    (StateInv s → (t.byteAt s.i.toNat).toNat = (s.reg x).toNat / 100 ∧
      (t.byteAt (s.i.toNat + 1)).toNat = (s.reg x).toNat / 10 % 10 ∧
      (t.byteAt (s.i.toNat + 2)).toNat = (s.reg x).toNat % 10)

/-- R101: V0 to Vx at I to I + x; nothing else changes, `I` included. -/
def Obligations.RegisterDumpStoresPrefix : Prop :=
  ∀ (x : Reg) (s : State), InRange s s.i.toNat (x.val + 1) → ∃ t, exec (.ldMemVx x) s = .next t ∧
    SameExcept [] [] (cellsOf s.i.toNat (x.val + 1)) s t ∧
    (StateInv s → ∀ k : Reg, k.val ≤ x.val → t.byteAt (s.i.toNat + k.val) = s.reg k)

/-- R102: V0 to Vx from I to I + x; registers above x, `I` and memory keep their values. -/
def Obligations.RegisterLoadReadsPrefix : Prop :=
  ∀ (x : Reg) (s : State), InRange s s.i.toNat (x.val + 1) → ∃ t, exec (.ldVxMem x) s = .next t ∧
    (∀ k : Reg, k.val ≤ x.val → t.reg k = s.byteAt (s.i.toNat + k.val)) ∧ (∀ k : Reg, x.val < k.val → t.reg k = s.reg k) ∧
    SameExcept ((List.finRange 16).filter (fun k => decide (k.val ≤ x.val))) [] [] s t

/-- R102: a load with the same x after a dump restores the dumped registers, whatever the registers held in between. -/
def Obligations.LoadAfterDumpRestores : Prop :=
  ∀ (x : Reg) (s t : State) (v' : Vector Byte 16), StateInv s → exec (.ldMemVx x) s = .next t →
    ∃ u, exec (.ldVxMem x) { t with v := v' } = .next u ∧ (∀ k : Reg, k.val ≤ x.val → u.reg k = s.reg k) ∧
      (∀ k : Reg, x.val < k.val → u.reg k = v'[k.val])

/-- R41: two bytes dumped at `PC` are the word the next step runs, V0 its high byte. -/
def Obligations.StoredBytesAreFetchedNext : Prop :=
  ∀ (x : Reg) (s t : State) (rest : List Operation), StateInv s → CycleIsNext s rest → s.i = s.pc → 1 ≤ x.val →
    exec (.ldMemVx x) s = .next t →
    step t = exec (decode (wordOfBytes (s.reg 0) (s.reg 1))) { t with pc := t.pc + 2, schedule := rest }

/-! ### Keypad and timers -/

/-- R108, R110, R111: the timer read and the two timer writes. -/
def Obligations.TimerMoves : Prop :=
  ∀ (x : Reg) (s : State),
    (∃ t, exec (.ldVxDt x) s = .next t ∧ t.reg x = s.dt ∧ SameExcept [x] [] [] s t) ∧
    (∃ t, exec (.ldDtVx x) s = .next t ∧ t.dt = s.reg x ∧ SameExcept [] [.dt] [] s t) ∧
    (∃ t, exec (.ldStVx x) s = .next t ∧ t.st = s.reg x ∧ SameExcept [] [.st] [] s t)

/-- R109: the lowest pressed key goes into `V[x]`; with no key down only the advance is undone, so a whole cycle changes nothing. -/
def Obligations.WaitForKeyTakesLowestOrRetries : Prop :=
  (∀ (x : Reg) (s : State) (k : Fin 16), s.key[k.val] = true → (∀ j : Fin 16, j.val < k.val → s.key[j.val] = false) →
    ∃ t, exec (.ldVxK x) s = .next t ∧ (t.reg x).toNat = k.val ∧ SameExcept [x] [] [] s t) ∧
  (∀ (x : Reg) (s : State), (∀ j : Fin 16, s.key[j.val] = false) →
    (∃ t, exec (.ldVxK x) s = .next t ∧ t.pc.toNat = (s.pc.toNat + 65534) % 65536 ∧ SameExcept [] [.pc] [] s t) ∧
    exec (.ldVxK x) { s with pc := s.pc + 2 } = .next s)

/-! ### Display -/

/-- R116: every cell 0, VF untouched. -/
def Obligations.ClearScreenZeroesEveryCell : Prop :=
  ∀ s : State, ∃ t, exec .cls s = .next t ∧ (∀ r c, t.fb.cell r c = false) ∧ SameExcept [] [.fb] [] s t

/-- R117, R118 (a): after DRW each cell is its old value XOR the sprite bit that lands on it, each position wrapped by itself, and
VF says whether some sprite bit met a cell that was 1. The order of reads is the spec's decision D28, the bit order D7 (log 9); a wrapping
machine, whose sprite bytes are always in range, is the alternative of D8 (log 7). -/
def Obligations.DrawXorsSpriteAndReportsCollision : Prop :=
  ∀ (x y : Reg) (n : Fin 16) (s : State), InRange s s.i.toNat n.val → ∃ t, exec (.drw x y n) s = .next t ∧
    SameExcept [vf] [.fb] [] s t ∧
    (∀ r c, SpriteCovers s x y n r c → t.fb.cell r c = !s.fb.cell r c) ∧
    (∀ r c, ¬ SpriteCovers s x y n r c → t.fb.cell r c = s.fb.cell r c) ∧
    ((∃ r c, SpriteCovers s x y n r c ∧ s.fb.cell r c = true) → t.reg vf = 1) ∧
    ((∀ r c, SpriteCovers s x y n r c → s.fb.cell r c = false) → t.reg vf = 0)

/-- R118 (b), by R117: the same sprite drawn again at the same anchor restores the framebuffer, and VF is 1 exactly when some sprite
bit fell on a cell that was 0 before the first draw (log 14 says why this and not R118 (b)'s own words on VF). -/
def Obligations.SecondDrawRestoresScreen : Prop :=
  ∀ (x y : Reg) (n : Fin 16) (s t : State), exec (.drw x y n) s = .next t →
    (t.reg x).toNat % 64 = (s.reg x).toNat % 64 → (t.reg y).toNat % 32 = (s.reg y).toNat % 32 →
    ∃ u, exec (.drw x y n) t = .next u ∧ u.fb = s.fb ∧
      (u.reg vf = 1 ↔ ∃ r c, SpriteCovers s x y n r c ∧ s.fb.cell r c = false)

/-- R118 (c): after CLS, any DRW leaves exactly the drawn cells set and VF at 0. -/
def Obligations.DrawOnClearScreenSetsExactlyTheSprite : Prop :=
  ∀ (x y : Reg) (n : Fin 16) (s t : State), InRange s s.i.toNat n.val → exec .cls s = .next t →
    ∃ u, exec (.drw x y n) t = .next u ∧ u.reg vf = 0 ∧ ∀ r c, u.fb.cell r c = true ↔ SpriteCovers s x y n r c

/-! ### Faults -/

/-- R124, R128: an instruction is never refused, it faults exactly when its data access leaves memory, the fault is the one of R124's
table, and otherwise it answers a next state. That such an access faults is the spec's decision D8 (log 7). -/
def Obligations.InstructionFaultsExactlyOutOfRange : Prop :=
  ∀ (i : Instr) (s : State),
    (∀ kind base len, dataAccess i s = some (kind, base, len) → ¬ InRange s base len →
      exec i s = .fault (.addrFault kind (if base > 0xFFF then base else 0x1000))) ∧
    ((∀ kind base len, dataAccess i s = some (kind, base, len) → InRange s base len) → ∃ t, exec i s = .next t)

/-- R33, R124: under `OOB_MODE = wrap12` the fault does not exist: every cycle answers a next state. `wrap12` is the alternative of
the spec's decision D8 (log 7). -/
def Obligations.WrappingMachineAlwaysSteps : Prop :=
  ∀ (s : State) (rest : List Operation), s.config.oob = .wrap12 → CycleIsNext s rest → ∃ t, step s = .next t ∧ t.schedule = rest

/-! ### What an instruction can write, over the whole instruction set -/

/-- R24, R67 (c), (d): no instruction writes KEY, the parameters or the host's schedule; DT is written by Fx15 only, ST by Fx18 only,
and only RND draws. -/
def Obligations.KeysAndTimersHaveTheirOwnWriters : Prop :=
  ∀ (i : Instr) (s t : State), exec i s = .next t →
    t.key = s.key ∧ t.config = s.config ∧ t.schedule = s.schedule ∧
    (t.dt ≠ s.dt → ∃ x, i = .ldDtVx x) ∧ (t.st ≠ s.st → ∃ x, i = .ldStVx x) ∧
    (t.draws ≠ s.draws → ∃ x kk, i = .rnd x kk)

/-- R20, R24: memory is written only through Fx33 and Fx55, the framebuffer only by CLS and DRW. -/
def Obligations.MemoryAndScreenHaveTheirOwnWriters : Prop :=
  ∀ (i : Instr) (s t : State), exec i s = .next t →
    (t.mem ≠ s.mem → ∃ x, i = .ldB x ∨ i = .ldMemVx x) ∧ (t.fb ≠ s.fb → i = .cls ∨ ∃ x y n, i = .drw x y n)

/-- R16, R17: SP moves only by CALL and RET and by one; a slot is written only by CALL, and only the slot SP names; no slot is cleared.
That a popped slot keeps its value is the spec's decision D12 (log 15). -/
def Obligations.StackIsWrittenByCallOnly : Prop :=
  ∀ (i : Instr) (s t : State), exec i s = .next t →
    (t.sp ≠ s.sp → (i = .ret ∧ t.sp.val + 1 = s.sp.val) ∨ (∃ nnn, i = .call nnn ∧ t.sp.val = s.sp.val + 1)) ∧
    (∀ k : Fin 16, t.stack[k.val] ≠ s.stack[k.val] → k.val = s.sp.val ∧ ∃ nnn, i = .call nnn)

/-- R11, R12: a V register changes only as a named destination, or as VF by one of the six flag-writing instructions. -/
def Obligations.RegistersChangeOnlyAsDestinationOrFlag : Prop :=
  ∀ (i : Instr) (s t : State) (r : Reg), exec i s = .next t → t.reg r ≠ s.reg r →
    Destination i r ∨ (r = vf ∧ WritesFlag i)

/-- R15: I changes only by Annn, Fx1E and Fx29. -/
def Obligations.IndexRegisterHasThreeWriters : Prop :=
  ∀ (i : Instr) (s t : State), exec i s = .next t → t.i ≠ s.i →
    (∃ nnn, i = .ldI nnn) ∨ (∃ x, i = .addI x) ∨ (∃ x, i = .ldF x)

/-- R13, R67 (b): `PC` after a cycle that goes on: pc0 + 4 for a taken skip, pc0 for a wait with no key down, the target of a jump,
of a call with room and of a return from a stack that is not empty, and pc0 + 2 in every other case. The arithmetic modulo 65536 is the
spec's decision D23 (log 12). -/
def Obligations.NextPcIsOneOfTheListed : Prop :=
  ∀ (s t : State) (rest : List Operation) (w : Nat), CycleIsNext s rest → WordAtPc s w → step s = .next t →
    (let i := decode (BitVec.ofNat 16 w)
     (SkipTaken i s → t.pc = s.pc + 4) ∧
     (WaitsForKey i s → t.pc = s.pc) ∧
     (∀ target, TransfersTo i s target → t.pc.toNat = target) ∧
     (¬ SkipTaken i s → ¬ WaitsForKey i s → (∀ target, ¬ TransfersTo i s target) → t.pc = s.pc + 2))

/-- R71, R162: a jump to itself is a fixed point of the cycle. The opcode number is the spec's decision D1 (log 5). -/
def Obligations.SelfJumpIsAFixedPoint : Prop :=
  ∀ (s : State) (rest : List Operation), s.pc.toNat < 4096 → CycleIsNext s rest → WordAtPc s (0x1000 + s.pc.toNat) →
    step s = .next { s with schedule := rest }

/-! ### The invariant -/

/-- The reset state meets the invariant. -/
def Obligations.ResetMeetsTheInvariant : Prop := StateInv State.reset

/-- Every step, of whichever operation, keeps the memory canonical (log 4). -/
def Obligations.EveryStepKeepsTheInvariant : Prop := ∀ s t : State, StateInv s → step s = .next t → StateInv t

/-! ### The host's operations -/

/-- R134, R135: a tick takes 1 from each nonzero timer and touches nothing else; the sound indication afterwards (a function of the
state, log 20). That the operation is then done is the model's own schedule (log 3). -/
def Obligations.TickDecrementsNonzeroTimers : Prop :=
  ∀ (s : State) (rest : List Operation), s.schedule = .tickTimers :: rest →
    ∃ t, step s = .next t ∧ t.schedule = rest ∧ t.dt.toNat = s.dt.toNat - 1 ∧ t.st.toNat = s.st.toNat - 1 ∧
      (soundActive t = true ↔ 1 < s.st.toNat) ∧ SameExcept [] [.dt, .st, .schedule] [] s t

/-- R138: set_key writes one flag; an index outside 0 to 15 is refused (the spec's decision D14, log 11). -/
def Obligations.SetKeyWritesOneFlag : Prop :=
  ∀ (s : State) (index : Nat) (pressed : Bool) (rest : List Operation), s.schedule = .setKey index pressed :: rest →
    (∀ k : Fin 16, index = k.val → ∃ t, step s = .next t ∧ t.schedule = rest ∧ t.key[k.val] = pressed ∧
      (∀ j : Fin 16, j ≠ k → t.key[j.val] = s.key[j.val]) ∧ SameExcept [] [.key, .schedule] [] s t) ∧
    (index ≥ 16 → step s = .refused (.keyIndexOutsideContract index))

/-- R148: load_program copies at most 3584 bytes to 0x200 and touches nothing else, or rejects the payload and leaves the state
untouched. That nothing else is touched is the spec's decision D15 (log 17). -/
def Obligations.LoadProgramCopiesOrRejects : Prop :=
  ∀ (s : State) (bytes : List Byte) (rest : List Operation), StateInv s → s.schedule = .loadProgram bytes :: rest →
    (bytes.length ≤ 3584 → ∃ t, step s = .next t ∧ loadProgram bytes { s with schedule := rest } = .ok t ∧ t.schedule = rest ∧
      (∀ k : Fin bytes.length, t.mem.read (0x200 + k.val) = bytes[k.val]) ∧
      SameExcept [] [.schedule] (cellsOf 0x200 bytes.length) s t) ∧
    (bytes.length > 3584 → loadProgram bytes s = .error .romTooLarge ∧ step s = .next { s with schedule := rest })

/-- R146, R152: the reset operation sets all ten components, from any state; memory is 0 but for FONT at 0x050 to 0x09F. The machine's
parameters, the draws made and the operations to come stay (log 10). -/
def Obligations.ResetOperationSetsEveryComponent : Prop :=
  ∀ (s : State) (rest : List Operation), s.schedule = .initializeMachine :: rest →
    ∃ t, step s = .next t ∧ (∀ r, t.reg r = 0) ∧ t.i = 0 ∧ t.pc = 0x0200 ∧ (∀ k : Fin 16, t.stack[k.val] = 0) ∧ t.sp.val = 0 ∧
      t.dt = 0 ∧ t.st = 0 ∧ (∀ r c, t.fb.cell r c = false) ∧ (∀ k : Fin 16, t.key[k.val] = false) ∧
      (∀ j : Fin 80, t.mem.read (0x050 + j.val) = s.config.font[j.val]) ∧
      (∀ a, a < 0x050 ∨ 0x0A0 ≤ a → t.mem.read a = 0) ∧
      t.config = s.config ∧ t.draws = s.draws ∧ t.schedule = rest

/-- The state after reset: the values of the table in section 10 of 10_state.md (R146), all 80 font bytes among them, and the default of
every parameter of R7 and of FONT. The font bytes are the spec's decision D6 (log 5). -/
def Obligations.ResetStateHasTheSpecifiedValues : Prop :=
  let s := State.reset
  (∀ r, s.reg r = 0) ∧ s.i = 0 ∧ s.pc = 0x0200 ∧ (∀ k : Fin 16, s.stack[k.val] = 0) ∧ s.sp.val = 0 ∧ s.dt = 0 ∧ s.st = 0 ∧
    (∀ r c, s.fb.cell r c = false) ∧ (∀ k : Fin 16, s.key[k.val] = false) ∧
    (∀ a, a < 4096 → a < 0x050 ∨ 0x0A0 ≤ a → s.byteAt a = 0) ∧
    (List.range 80).map (fun j => s.byteAt (0x050 + j)) = glyphRows.flatten ∧
    s.config.font.toList = glyphRows.flatten ∧ s.config.font = standardFont ∧
    s.config.oob = .fault ∧ s.config.cxkk = .rnd ∧ s.config.aluAlias = .sequential

/-- R139: the view lists the 2048 cells in row-major order, and taking it changes nothing (the view is a function of the state, log 20;
that the operation is then done is the model's own schedule, log 3). -/
def Obligations.FramebufferViewIsRowMajor : Prop :=
  ∀ s : State,
    (framebufferCells s).length = 2048 ∧
    (∀ (r : Fin 32) (c : Fin 64), (framebufferCells s)[r.val * 64 + c.val]? = some (s.fb.cell r c)) ∧
    (∀ rest, s.schedule = .framebufferView :: rest → step s = .next { s with schedule := rest })

/-! ### What cannot be observed -/

/-- R17: a slot at or above SP is seen by nothing: two states that differ only there step alike, into states that again differ only
there. -/
def Obligations.StaleStackSlotsAreUnobservable : Prop :=
  ∀ s s' : State, SameButStaleSlots s s' → SameOutcome SameButStaleSlots (step s) (step s')

/-- R19, R134: the sound timer flows into nothing but itself: two states that differ only in ST step alike, into states that again
differ only in ST. -/
def Obligations.SoundTimerFlowsOnlyIntoItself : Prop :=
  ∀ s s' : State, SameButSoundTimer s s' → SameOutcome SameButSoundTimer (step s) (step s')

/-! ### Schedules -/

/-- R5, R7: every schedule, finite or infinite, is run by the steps: when the operations at its first places are those of the list `ops`,
performing them is the run of as many steps from the state with that list to perform first, past a stop as well (log 3). -/
def Obligations.StepsRunEverySchedule : Prop :=
  ∀ (sched : Schedule) (ops : List Operation) (s : State),
    (∀ k : Fin ops.length, sched.operation k.val = some ops[k.val]) →
    stepRunTimes ops.length (runningAt { s with schedule := ops ++ s.schedule }) = sched.runAfter s ops.length

/-- R134, R162, D17: under every infinite schedule of the operations of R150 (4) in which ticks keep arriving, a program that waits in a
jump to itself sees both timers stop at 0 for good, and nothing but the timers and the keys has changed, nothing but the timers where no
key is set. That the host neither loads nor initializes meanwhile is a premise beside the fairness of D17 (log 24). The opcode number is
the spec's decision D1 (log 5). -/
def Obligations.TimersStopWhenTicksKeepArriving : Prop :=
  ∀ (ops : Nat → Operation) (s : State), (∀ n, RunningOperation (ops n)) →
    (Schedule.infinite ops).TicksKeepArriving → s.pc.toNat < 4096 → WordAtPc s (0x1000 + s.pc.toNat) →
    ∃ n, ∀ m, n ≤ m → ∃ t, (Schedule.infinite ops).stateAfter s m = .next t ∧ t = { s with dt := 0, st := 0, key := t.key } ∧
      ((∀ j k pressed, ops j ≠ .setKey k pressed) → t.key = s.key)

/-- R124, R130: where a schedule stands at an AddrFault, the initialization produces the reset state, the parameters kept (log 10), and
every other operation leaves the run at the fault: what it does is not specified (the stop is the spec's U11, log 23). The same of the
refusal of a call outside its contract is the model's choice (log 23). -/
def Obligations.OnlyInitializationLeavesAStop : Prop :=
  ∀ (sched : Schedule) (s : State) (n : Nat) (op : Operation), sched.operation n = some op →
    (∀ t, sched.stateAfter s n ≠ .next t) →
    (op = .initializeMachine → ∃ t, sched.stateAfter s (n + 1) = .next t ∧ AtResetValues t ∧ t.config = s.config) ∧
    (op ≠ .initializeMachine → sched.stateAfter s (n + 1) = sched.stateAfter s n)
end

