-- ==== Sys2Proof/Laws/State.lean ====
section
/-!
SUPPORT. What each update of the state does to each field: one lemma per field per update, all true by rfl, so that no
later proof unfolds a record update.
-/
namespace Sys2Proof.Machine

section setReg
variable (s : State) (x : Reg) (b : Byte)

@[simp] theorem setReg_i : (s.setReg x b).i = s.i := rfl
@[simp] theorem setReg_pc : (s.setReg x b).pc = s.pc := rfl
@[simp] theorem setReg_stack : (s.setReg x b).stack = s.stack := rfl
@[simp] theorem setReg_sp : (s.setReg x b).sp = s.sp := rfl
@[simp] theorem setReg_dt : (s.setReg x b).dt = s.dt := rfl
@[simp] theorem setReg_st : (s.setReg x b).st = s.st := rfl
@[simp] theorem setReg_fb : (s.setReg x b).fb = s.fb := rfl
@[simp] theorem setReg_key : (s.setReg x b).key = s.key := rfl
@[simp] theorem setReg_mem : (s.setReg x b).mem = s.mem := rfl
@[simp] theorem setReg_config : (s.setReg x b).config = s.config := rfl
@[simp] theorem setReg_draws : (s.setReg x b).draws = s.draws := rfl
@[simp] theorem setReg_schedule : (s.setReg x b).schedule = s.schedule := rfl

end setReg

section setI
variable (s : State) (w : Word)

@[simp] theorem setI_v : (s.setI w).v = s.v := rfl
@[simp] theorem setI_i : (s.setI w).i = w := rfl
@[simp] theorem setI_pc : (s.setI w).pc = s.pc := rfl
@[simp] theorem setI_stack : (s.setI w).stack = s.stack := rfl
@[simp] theorem setI_sp : (s.setI w).sp = s.sp := rfl
@[simp] theorem setI_dt : (s.setI w).dt = s.dt := rfl
@[simp] theorem setI_st : (s.setI w).st = s.st := rfl
@[simp] theorem setI_fb : (s.setI w).fb = s.fb := rfl
@[simp] theorem setI_key : (s.setI w).key = s.key := rfl
@[simp] theorem setI_mem : (s.setI w).mem = s.mem := rfl
@[simp] theorem setI_config : (s.setI w).config = s.config := rfl
@[simp] theorem setI_draws : (s.setI w).draws = s.draws := rfl
@[simp] theorem setI_schedule : (s.setI w).schedule = s.schedule := rfl

end setI

section setPc
variable (s : State) (w : Word)

@[simp] theorem setPc_v : (s.setPc w).v = s.v := rfl
@[simp] theorem setPc_i : (s.setPc w).i = s.i := rfl
@[simp] theorem setPc_pc : (s.setPc w).pc = w := rfl
@[simp] theorem setPc_stack : (s.setPc w).stack = s.stack := rfl
@[simp] theorem setPc_sp : (s.setPc w).sp = s.sp := rfl
@[simp] theorem setPc_dt : (s.setPc w).dt = s.dt := rfl
@[simp] theorem setPc_st : (s.setPc w).st = s.st := rfl
@[simp] theorem setPc_fb : (s.setPc w).fb = s.fb := rfl
@[simp] theorem setPc_key : (s.setPc w).key = s.key := rfl
@[simp] theorem setPc_mem : (s.setPc w).mem = s.mem := rfl
@[simp] theorem setPc_config : (s.setPc w).config = s.config := rfl
@[simp] theorem setPc_draws : (s.setPc w).draws = s.draws := rfl
@[simp] theorem setPc_schedule : (s.setPc w).schedule = s.schedule := rfl

end setPc

section setSlot
variable (s : State) (k : Fin 16) (w : Word)

@[simp] theorem setSlot_v : (s.setSlot k w).v = s.v := rfl
@[simp] theorem setSlot_i : (s.setSlot k w).i = s.i := rfl
@[simp] theorem setSlot_pc : (s.setSlot k w).pc = s.pc := rfl
@[simp] theorem setSlot_sp : (s.setSlot k w).sp = s.sp := rfl
@[simp] theorem setSlot_dt : (s.setSlot k w).dt = s.dt := rfl
@[simp] theorem setSlot_st : (s.setSlot k w).st = s.st := rfl
@[simp] theorem setSlot_fb : (s.setSlot k w).fb = s.fb := rfl
@[simp] theorem setSlot_key : (s.setSlot k w).key = s.key := rfl
@[simp] theorem setSlot_mem : (s.setSlot k w).mem = s.mem := rfl
@[simp] theorem setSlot_config : (s.setSlot k w).config = s.config := rfl
@[simp] theorem setSlot_draws : (s.setSlot k w).draws = s.draws := rfl
@[simp] theorem setSlot_schedule : (s.setSlot k w).schedule = s.schedule := rfl

end setSlot

section setSp
variable (s : State) (k : Fin 17)

@[simp] theorem setSp_v : (s.setSp k).v = s.v := rfl
@[simp] theorem setSp_i : (s.setSp k).i = s.i := rfl
@[simp] theorem setSp_pc : (s.setSp k).pc = s.pc := rfl
@[simp] theorem setSp_stack : (s.setSp k).stack = s.stack := rfl
@[simp] theorem setSp_sp : (s.setSp k).sp = k := rfl
@[simp] theorem setSp_dt : (s.setSp k).dt = s.dt := rfl
@[simp] theorem setSp_st : (s.setSp k).st = s.st := rfl
@[simp] theorem setSp_fb : (s.setSp k).fb = s.fb := rfl
@[simp] theorem setSp_key : (s.setSp k).key = s.key := rfl
@[simp] theorem setSp_mem : (s.setSp k).mem = s.mem := rfl
@[simp] theorem setSp_config : (s.setSp k).config = s.config := rfl
@[simp] theorem setSp_draws : (s.setSp k).draws = s.draws := rfl
@[simp] theorem setSp_schedule : (s.setSp k).schedule = s.schedule := rfl

end setSp

section setDt
variable (s : State) (b : Byte)

@[simp] theorem setDt_v : (s.setDt b).v = s.v := rfl
@[simp] theorem setDt_i : (s.setDt b).i = s.i := rfl
@[simp] theorem setDt_pc : (s.setDt b).pc = s.pc := rfl
@[simp] theorem setDt_stack : (s.setDt b).stack = s.stack := rfl
@[simp] theorem setDt_sp : (s.setDt b).sp = s.sp := rfl
@[simp] theorem setDt_dt : (s.setDt b).dt = b := rfl
@[simp] theorem setDt_st : (s.setDt b).st = s.st := rfl
@[simp] theorem setDt_fb : (s.setDt b).fb = s.fb := rfl
@[simp] theorem setDt_key : (s.setDt b).key = s.key := rfl
@[simp] theorem setDt_mem : (s.setDt b).mem = s.mem := rfl
@[simp] theorem setDt_config : (s.setDt b).config = s.config := rfl
@[simp] theorem setDt_draws : (s.setDt b).draws = s.draws := rfl
@[simp] theorem setDt_schedule : (s.setDt b).schedule = s.schedule := rfl

end setDt

section setSt
variable (s : State) (b : Byte)

@[simp] theorem setSt_v : (s.setSt b).v = s.v := rfl
@[simp] theorem setSt_i : (s.setSt b).i = s.i := rfl
@[simp] theorem setSt_pc : (s.setSt b).pc = s.pc := rfl
@[simp] theorem setSt_stack : (s.setSt b).stack = s.stack := rfl
@[simp] theorem setSt_sp : (s.setSt b).sp = s.sp := rfl
@[simp] theorem setSt_dt : (s.setSt b).dt = s.dt := rfl
@[simp] theorem setSt_st : (s.setSt b).st = b := rfl
@[simp] theorem setSt_fb : (s.setSt b).fb = s.fb := rfl
@[simp] theorem setSt_key : (s.setSt b).key = s.key := rfl
@[simp] theorem setSt_mem : (s.setSt b).mem = s.mem := rfl
@[simp] theorem setSt_config : (s.setSt b).config = s.config := rfl
@[simp] theorem setSt_draws : (s.setSt b).draws = s.draws := rfl
@[simp] theorem setSt_schedule : (s.setSt b).schedule = s.schedule := rfl

end setSt

section setFb
variable (s : State) (fb : Framebuffer)

@[simp] theorem setFb_v : (s.setFb fb).v = s.v := rfl
@[simp] theorem setFb_i : (s.setFb fb).i = s.i := rfl
@[simp] theorem setFb_pc : (s.setFb fb).pc = s.pc := rfl
@[simp] theorem setFb_stack : (s.setFb fb).stack = s.stack := rfl
@[simp] theorem setFb_sp : (s.setFb fb).sp = s.sp := rfl
@[simp] theorem setFb_dt : (s.setFb fb).dt = s.dt := rfl
@[simp] theorem setFb_st : (s.setFb fb).st = s.st := rfl
@[simp] theorem setFb_fb : (s.setFb fb).fb = fb := rfl
@[simp] theorem setFb_key : (s.setFb fb).key = s.key := rfl
@[simp] theorem setFb_mem : (s.setFb fb).mem = s.mem := rfl
@[simp] theorem setFb_config : (s.setFb fb).config = s.config := rfl
@[simp] theorem setFb_draws : (s.setFb fb).draws = s.draws := rfl
@[simp] theorem setFb_schedule : (s.setFb fb).schedule = s.schedule := rfl

end setFb

section setKey
variable (s : State) (k : Fin 16) (p : Bool)

@[simp] theorem setKey_v : (s.setKey k p).v = s.v := rfl
@[simp] theorem setKey_i : (s.setKey k p).i = s.i := rfl
@[simp] theorem setKey_pc : (s.setKey k p).pc = s.pc := rfl
@[simp] theorem setKey_stack : (s.setKey k p).stack = s.stack := rfl
@[simp] theorem setKey_sp : (s.setKey k p).sp = s.sp := rfl
@[simp] theorem setKey_dt : (s.setKey k p).dt = s.dt := rfl
@[simp] theorem setKey_st : (s.setKey k p).st = s.st := rfl
@[simp] theorem setKey_fb : (s.setKey k p).fb = s.fb := rfl
@[simp] theorem setKey_mem : (s.setKey k p).mem = s.mem := rfl
@[simp] theorem setKey_config : (s.setKey k p).config = s.config := rfl
@[simp] theorem setKey_draws : (s.setKey k p).draws = s.draws := rfl
@[simp] theorem setKey_schedule : (s.setKey k p).schedule = s.schedule := rfl

end setKey

section setMem
variable (s : State) (m : Memory)

@[simp] theorem setMem_v : (s.setMem m).v = s.v := rfl
@[simp] theorem setMem_i : (s.setMem m).i = s.i := rfl
@[simp] theorem setMem_pc : (s.setMem m).pc = s.pc := rfl
@[simp] theorem setMem_stack : (s.setMem m).stack = s.stack := rfl
@[simp] theorem setMem_sp : (s.setMem m).sp = s.sp := rfl
@[simp] theorem setMem_dt : (s.setMem m).dt = s.dt := rfl
@[simp] theorem setMem_st : (s.setMem m).st = s.st := rfl
@[simp] theorem setMem_fb : (s.setMem m).fb = s.fb := rfl
@[simp] theorem setMem_key : (s.setMem m).key = s.key := rfl
@[simp] theorem setMem_mem : (s.setMem m).mem = m := rfl
@[simp] theorem setMem_config : (s.setMem m).config = s.config := rfl
@[simp] theorem setMem_draws : (s.setMem m).draws = s.draws := rfl
@[simp] theorem setMem_schedule : (s.setMem m).schedule = s.schedule := rfl

end setMem

section countDraw
variable (s : State)

@[simp] theorem countDraw_v : s.countDraw.v = s.v := rfl
@[simp] theorem countDraw_i : s.countDraw.i = s.i := rfl
@[simp] theorem countDraw_pc : s.countDraw.pc = s.pc := rfl
@[simp] theorem countDraw_stack : s.countDraw.stack = s.stack := rfl
@[simp] theorem countDraw_sp : s.countDraw.sp = s.sp := rfl
@[simp] theorem countDraw_dt : s.countDraw.dt = s.dt := rfl
@[simp] theorem countDraw_st : s.countDraw.st = s.st := rfl
@[simp] theorem countDraw_fb : s.countDraw.fb = s.fb := rfl
@[simp] theorem countDraw_key : s.countDraw.key = s.key := rfl
@[simp] theorem countDraw_mem : s.countDraw.mem = s.mem := rfl
@[simp] theorem countDraw_config : s.countDraw.config = s.config := rfl
@[simp] theorem countDraw_draws : s.countDraw.draws = s.draws + 1 := rfl
@[simp] theorem countDraw_schedule : s.countDraw.schedule = s.schedule := rfl

end countDraw

section setSchedule
variable (s : State) (ops : List Operation)

@[simp] theorem setSchedule_v : (s.setSchedule ops).v = s.v := rfl
@[simp] theorem setSchedule_i : (s.setSchedule ops).i = s.i := rfl
@[simp] theorem setSchedule_pc : (s.setSchedule ops).pc = s.pc := rfl
@[simp] theorem setSchedule_stack : (s.setSchedule ops).stack = s.stack := rfl
@[simp] theorem setSchedule_sp : (s.setSchedule ops).sp = s.sp := rfl
@[simp] theorem setSchedule_dt : (s.setSchedule ops).dt = s.dt := rfl
@[simp] theorem setSchedule_st : (s.setSchedule ops).st = s.st := rfl
@[simp] theorem setSchedule_fb : (s.setSchedule ops).fb = s.fb := rfl
@[simp] theorem setSchedule_key : (s.setSchedule ops).key = s.key := rfl
@[simp] theorem setSchedule_mem : (s.setSchedule ops).mem = s.mem := rfl
@[simp] theorem setSchedule_config : (s.setSchedule ops).config = s.config := rfl
@[simp] theorem setSchedule_draws : (s.setSchedule ops).draws = s.draws := rfl
@[simp] theorem setSchedule_schedule : (s.setSchedule ops).schedule = ops := rfl

end setSchedule

/-! ### Registers -/

@[simp] theorem setReg_reg_self (s : State) (x : Reg) (b : Byte) : (s.setReg x b).reg x = b := by
  simp [State.reg, State.setReg]

theorem setReg_reg_ne (s : State) {x r : Reg} (b : Byte) (h : r ≠ x) : (s.setReg x b).reg r = s.reg r := by
  have h' : x.val ≠ r.val := fun e => h (Fin.ext e.symm)
  simp [State.reg, State.setReg, Vector.getElem_set_ne _ _ h']

/-- A register after a write, in one lemma. -/
theorem setReg_reg (s : State) (x r : Reg) (b : Byte) : (s.setReg x b).reg r = if r = x then b else s.reg r := by
  split
  · next h => subst h; simp
  · next h => exact setReg_reg_ne s b h

/-- Two states with the same V registers read alike. -/
theorem reg_congr {s t : State} (h : t.v = s.v) (r : Reg) : t.reg r = s.reg r := by simp [State.reg, h]

theorem v_ext {s t : State} (h : ∀ r, t.reg r = s.reg r) : t.v = s.v := by
  apply Vector.ext
  intro k hk
  exact h ⟨k, hk⟩

@[simp] theorem setI_reg (s : State) (w : Word) (r : Reg) : (s.setI w).reg r = s.reg r := rfl
@[simp] theorem setPc_reg (s : State) (w : Word) (r : Reg) : (s.setPc w).reg r = s.reg r := rfl
@[simp] theorem setSlot_reg (s : State) (k : Fin 16) (w : Word) (r : Reg) : (s.setSlot k w).reg r = s.reg r := rfl
@[simp] theorem setSp_reg (s : State) (k : Fin 17) (r : Reg) : (s.setSp k).reg r = s.reg r := rfl
@[simp] theorem setDt_reg (s : State) (b : Byte) (r : Reg) : (s.setDt b).reg r = s.reg r := rfl
@[simp] theorem setSt_reg (s : State) (b : Byte) (r : Reg) : (s.setSt b).reg r = s.reg r := rfl
@[simp] theorem setFb_reg (s : State) (fb : Framebuffer) (r : Reg) : (s.setFb fb).reg r = s.reg r := rfl
@[simp] theorem setKey_reg (s : State) (k : Fin 16) (p : Bool) (r : Reg) : (s.setKey k p).reg r = s.reg r := rfl
@[simp] theorem setMem_reg (s : State) (m : Memory) (r : Reg) : (s.setMem m).reg r = s.reg r := rfl
@[simp] theorem countDraw_reg (s : State) (r : Reg) : s.countDraw.reg r = s.reg r := rfl
@[simp] theorem setSchedule_reg (s : State) (ops : List Operation) (r : Reg) : (s.setSchedule ops).reg r = s.reg r := rfl

/-! ### Memory bytes: an update of another field keeps every byte -/

@[simp] theorem setReg_byteAt (s : State) (x : Reg) (b : Byte) (a : Nat) : (s.setReg x b).byteAt a = s.byteAt a := rfl
@[simp] theorem setI_byteAt (s : State) (w : Word) (a : Nat) : (s.setI w).byteAt a = s.byteAt a := rfl
@[simp] theorem setPc_byteAt (s : State) (w : Word) (a : Nat) : (s.setPc w).byteAt a = s.byteAt a := rfl
@[simp] theorem setSlot_byteAt (s : State) (k : Fin 16) (w : Word) (a : Nat) : (s.setSlot k w).byteAt a = s.byteAt a := rfl
@[simp] theorem setSp_byteAt (s : State) (k : Fin 17) (a : Nat) : (s.setSp k).byteAt a = s.byteAt a := rfl
@[simp] theorem setDt_byteAt (s : State) (b : Byte) (a : Nat) : (s.setDt b).byteAt a = s.byteAt a := rfl
@[simp] theorem setSt_byteAt (s : State) (b : Byte) (a : Nat) : (s.setSt b).byteAt a = s.byteAt a := rfl
@[simp] theorem setFb_byteAt (s : State) (fb : Framebuffer) (a : Nat) : (s.setFb fb).byteAt a = s.byteAt a := rfl
@[simp] theorem setKey_byteAt (s : State) (k : Fin 16) (p : Bool) (a : Nat) : (s.setKey k p).byteAt a = s.byteAt a := rfl
@[simp] theorem countDraw_byteAt (s : State) (a : Nat) : s.countDraw.byteAt a = s.byteAt a := rfl
@[simp] theorem setSchedule_byteAt (s : State) (ops : List Operation) (a : Nat) : (s.setSchedule ops).byteAt a = s.byteAt a := rfl

@[simp] theorem setByte_reg (s : State) (a : Nat) (b : Byte) (r : Reg) : (s.setByte a b).reg r = s.reg r := rfl
@[simp] theorem setByte_mem (s : State) (a : Nat) (b : Byte) : (s.setByte a b).mem = s.mem.write (cellOf a) b := rfl
@[simp] theorem setByte_v (s : State) (a : Nat) (b : Byte) : (s.setByte a b).v = s.v := rfl
@[simp] theorem setByte_i (s : State) (a : Nat) (b : Byte) : (s.setByte a b).i = s.i := rfl
@[simp] theorem setByte_pc (s : State) (a : Nat) (b : Byte) : (s.setByte a b).pc = s.pc := rfl
@[simp] theorem setByte_stack (s : State) (a : Nat) (b : Byte) : (s.setByte a b).stack = s.stack := rfl
@[simp] theorem setByte_sp (s : State) (a : Nat) (b : Byte) : (s.setByte a b).sp = s.sp := rfl
@[simp] theorem setByte_dt (s : State) (a : Nat) (b : Byte) : (s.setByte a b).dt = s.dt := rfl
@[simp] theorem setByte_st (s : State) (a : Nat) (b : Byte) : (s.setByte a b).st = s.st := rfl
@[simp] theorem setByte_fb (s : State) (a : Nat) (b : Byte) : (s.setByte a b).fb = s.fb := rfl
@[simp] theorem setByte_key (s : State) (a : Nat) (b : Byte) : (s.setByte a b).key = s.key := rfl
@[simp] theorem setByte_config (s : State) (a : Nat) (b : Byte) : (s.setByte a b).config = s.config := rfl
@[simp] theorem setByte_draws (s : State) (a : Nat) (b : Byte) : (s.setByte a b).draws = s.draws := rfl
@[simp] theorem setByte_schedule (s : State) (a : Nat) (b : Byte) : (s.setByte a b).schedule = s.schedule := rfl

/-! ### The stack -/

@[simp] theorem setSlot_stack (s : State) (k : Fin 16) (w : Word) : (s.setSlot k w).stack = s.stack.set k.val w k.isLt := rfl

end Sys2Proof.Machine
end

