-- ==== Sys2Proof/Laws/Memory.lean ====
section
/-!
SUPPORT. The laws of memory: read after write, and that every operation keeps the canonical form.
-/
namespace Sys2Proof.Machine

/-! ### Read after write -/

/-- In canonical memory a cell below every listed address reads as its reset byte. -/
theorem Memory.read_below {m : Memory} {a x : Nat} (hw : m.wf = true) (ha : m.above a = true) (hx : x ≤ a) :
    m.read x = resetByte x := by
  induction m generalizing a with
  | nil => rfl
  | cons c rest ih =>
    obtain ⟨b, v⟩ := c
    simp only [Memory.wf, Memory.above, Bool.and_eq_true, decide_eq_true_eq] at hw ha
    simp only [Memory.read, if_neg (show ¬ b = x by omega)]
    exact ih hw.2 hw.1.2 (by omega)

theorem Memory.read_cons_ne {m : Memory} {a x : Nat} {v : Byte} (h : x ≠ a) : (Memory.cons a v m).read x = m.read x := by
  unfold Memory.cons
  split
  · rfl
  · simp [Memory.read, Ne.symm h]

theorem Memory.read_cons_self {m : Memory} {a : Nat} {v : Byte} (hw : m.wf = true) (ha : m.above a = true) :
    (Memory.cons a v m).read a = v := by
  unfold Memory.cons
  split
  · next h => rw [Memory.read_below hw ha (Nat.le_refl a), h]
  · simp [Memory.read]

/-- A write leaves every other address alone. -/
theorem Memory.read_write_ne (m : Memory) {a x : Nat} (v : Byte) (h : x ≠ a) : (m.write a v).read x = m.read x := by
  induction m with
  | nil => simp [Memory.write, Memory.read_cons_ne h]
  | cons c rest ih =>
    obtain ⟨b, w⟩ := c
    simp only [Memory.write]
    split
    · exact Memory.read_cons_ne h
    · split
      · next hab => rw [Memory.read_cons_ne h]; simp [Memory.read, ← hab, Ne.symm h]
      · simp [Memory.read, ih]

/-- A read after a write to the same address gives the byte written. -/
theorem Memory.read_write_self {m : Memory} (hw : m.wf = true) (a : Nat) (v : Byte) : (m.write a v).read a = v := by
  induction m with
  | nil => exact Memory.read_cons_self rfl rfl
  | cons c rest ih =>
    obtain ⟨b, w⟩ := c
    have hw' := hw
    simp only [Memory.wf, Bool.and_eq_true, decide_eq_true_eq] at hw'
    simp only [Memory.write]
    split
    · next hab => exact Memory.read_cons_self hw (by simpa [Memory.above] using hab)
    · split
      · next hab => exact Memory.read_cons_self hw'.2 (hab ▸ hw'.1.2)
      · next h1 h2 => simp [Memory.read, Ne.symm h2, ih hw'.2]

/-- A read after a write, in one lemma. -/
theorem Memory.read_write {m : Memory} (hw : m.wf = true) (a x : Nat) (v : Byte) :
    (m.write a v).read x = if x = a then v else m.read x := by
  split
  · next h => subst h; exact Memory.read_write_self hw x v
  · next h => exact Memory.read_write_ne m v h

/-! ### The canonical form -/

theorem Memory.above_cons {m : Memory} {a b : Nat} {v : Byte} (hb : b < a) (hm : m.above b = true) :
    (Memory.cons a v m).above b = true := by
  unfold Memory.cons
  split
  · exact hm
  · simpa [Memory.above] using hb

theorem Memory.above_mono {m : Memory} {a b : Nat} (h : m.above a = true) (hb : b ≤ a) : m.above b = true := by
  cases m with
  | nil => rfl
  | cons c rest => simp only [Memory.above, decide_eq_true_eq] at h ⊢; omega

theorem Memory.wf_cons {m : Memory} {a : Nat} {v : Byte} (hw : m.wf = true) (ha : a < 4096) (hm : m.above a = true) :
    (Memory.cons a v m).wf = true := by
  unfold Memory.cons
  split
  · exact hw
  · next h => simp [Memory.wf, hw, ha, hm, h]

theorem Memory.above_write {m : Memory} {a b : Nat} {v : Byte} (hw : m.wf = true) (hb : b < a) (hm : m.above b = true) :
    (m.write a v).above b = true := by
  cases m with
  | nil => exact Memory.above_cons hb rfl
  | cons c rest =>
    obtain ⟨x, w⟩ := c
    have hw' := hw
    simp only [Memory.wf, Bool.and_eq_true, decide_eq_true_eq] at hw'
    simp only [Memory.write]
    split
    · exact Memory.above_cons hb hm
    · split
      · next h => exact Memory.above_cons hb (Memory.above_mono hw'.1.2 (by omega))
      · exact hm

/-- A write below 4096 keeps the canonical form. -/
theorem Memory.wf_write {m : Memory} (hw : m.wf = true) {a : Nat} (ha : a < 4096) (v : Byte) : (m.write a v).wf = true := by
  induction m with
  | nil => exact Memory.wf_cons rfl ha rfl
  | cons c rest ih =>
    obtain ⟨b, w⟩ := c
    have hw' := hw
    simp only [Memory.wf, Bool.and_eq_true, decide_eq_true_eq] at hw'
    simp only [Memory.write]
    split
    · next hab => exact Memory.wf_cons hw ha (by simpa [Memory.above] using hab)
    · split
      · next hab => exact Memory.wf_cons hw'.2 ha (hab ▸ hw'.1.2)
      · next h1 h2 =>
        have h3 : Memory.above b (Memory.write rest a v) = true := Memory.above_write hw'.2 (by omega) hw'.1.2
        simp only [Memory.wf, Bool.and_eq_true, decide_eq_true_eq]
        exact ⟨⟨hw'.1.1, h3⟩, ih hw'.2⟩

theorem Memory.wf_writeList {m : Memory} (hw : m.wf = true) (base : Nat) (bytes : List Byte) (h : base + bytes.length ≤ 4096) :
    (m.writeList base bytes).wf = true := by
  induction bytes generalizing m base with
  | nil => exact hw
  | cons v rest ih =>
    simp only [List.length_cons] at h
    exact ih (Memory.wf_write hw (by omega) v) (base + 1) (by omega)

/-- Every byte after a list of bytes is written. -/
theorem Memory.read_writeList {m : Memory} (hw : m.wf = true) (base : Nat) (bytes : List Byte)
    (h : base + bytes.length ≤ 4096) (a : Nat) :
    (m.writeList base bytes).read a = if base ≤ a ∧ a < base + bytes.length then bytes.getD (a - base) 0 else m.read a := by
  induction bytes generalizing m base with
  | nil =>
    have h0 : ¬ (base ≤ a ∧ a < base + ([] : List Byte).length) := by simp only [List.length_nil]; omega
    rw [if_neg h0]
    rfl
  | cons v rest ih =>
    simp only [List.length_cons] at h ⊢
    rw [Memory.writeList, ih (Memory.wf_write hw (by omega) v) (base + 1) (by omega), Memory.read_write hw]
    by_cases h1 : a = base
    · subst h1
      simp
    · by_cases h2 : base + 1 ≤ a ∧ a < base + 1 + rest.length
      · have h3 : base ≤ a ∧ a < base + (rest.length + 1) := by omega
        rw [if_pos h2, if_pos h3, show a - base = (a - (base + 1)) + 1 by omega]
        simp
      · have h3 : ¬ (base ≤ a ∧ a < base + (rest.length + 1)) := by omega
        rw [if_neg h2, if_neg h3, if_neg h1]

/-! ### The same over the state -/

theorem cellOf_lt (a : Nat) : cellOf a < 4096 := Nat.mod_lt _ (by decide)

theorem cellOf_of_lt {a : Nat} (h : a < 4096) : cellOf a = a := Nat.mod_eq_of_lt h

@[simp] theorem cellOf_cellOf (a : Nat) : cellOf (cellOf a) = cellOf a := Nat.mod_mod _ _

theorem setByte_byteAt {s : State} (hw : s.mem.wf = true) (a x : Nat) (b : Byte) :
    (s.setByte a b).byteAt x = if cellOf x = cellOf a then b else s.byteAt x :=
  Memory.read_write hw _ _ _

theorem setByte_wf {s : State} (hw : s.mem.wf = true) (a : Nat) (b : Byte) : (s.setByte a b).mem.wf = true :=
  Memory.wf_write hw (cellOf_lt a) b

end Sys2Proof.Machine
end

