-- ==== Sys2Proof/Laws/Ops.lean ====
section
/-!
SUPPORT. One lemma per shared operation that says once everything it can do; later proofs cite these instead of unfolding.
-/
namespace Sys2Proof.Machine

/-! ### Access checks (R33, R124, R128) -/

theorem firstOutside_eq_none {base len : Nat} : firstOutside base len = none ↔ len = 0 ∨ base + len ≤ 4096 := by
  induction len with
  | zero => simp [firstOutside]
  | succ n ih =>
    cases h : firstOutside base n with
    | some a =>
      have h1 : ¬ (n = 0 ∨ base + n ≤ 4096) := fun hc => by simp [ih.2 hc] at h
      simp only [firstOutside, h, reduceCtorEq, false_iff, false_or]
      omega
    | none =>
      have h1 := ih.1 h
      simp only [firstOutside, h]
      split
      · simp only [reduceCtorEq, false_iff, false_or]; omega
      · simp only [true_iff, reduceCtorEq, false_or]; omega

/-- The address a failing check reports is the one of R124's table. -/
theorem firstOutside_eq_some {base len a : Nat} (h : firstOutside base len = some a) : a = offendingAddr base := by
  induction len with
  | zero => simp [firstOutside] at h
  | succ n ih =>
    cases h1 : firstOutside base n with
    | some b =>
      simp only [firstOutside, h1] at h
      exact ih (h1 ▸ h)
    | none =>
      have h2 := firstOutside_eq_none.1 h1
      simp only [firstOutside, h1] at h
      split at h
      · simp only [Option.some.injEq] at h
        unfold offendingAddr
        split <;> omega
      · simp at h

/-- The check passes exactly when the access is in range. -/
theorem accessFault_eq_none {s : State} {kind : AccessKind} {base len : Nat} :
    accessFault s kind base len = none ↔ InRange s base len := by
  unfold accessFault InRange
  cases s.config.oob <;> simp [firstOutside_eq_none]

/-- The check fails exactly when the access is out of range, with the fault of R124's table. -/
theorem accessFault_eq_some {s : State} {kind : AccessKind} {base len : Nat} {f : Fault} :
    accessFault s kind base len = some f ↔ ¬ InRange s base len ∧ f = .addrFault kind (offendingAddr base) := by
  rw [← accessFault_eq_none (kind := kind)]
  unfold accessFault
  cases s.config.oob with
  | wrap12 => simp
  | fault =>
    cases h : firstOutside base len with
    | none => simp
    | some a => simp [← firstOutside_eq_some h, eq_comm]

/-- The check reads nothing but the machine's parameters. -/
theorem accessFault_congr {s t : State} (h : t.config = s.config) (kind : AccessKind) (base len : Nat) :
    accessFault t kind base len = accessFault s kind base len := by
  unfold accessFault
  rw [h]

/-- In range, the access runs. -/
theorem checkedAccess_of_inRange {s : State} {kind : AccessKind} {base len : Nat} (run : State → State)
    (h : InRange s base len) : checkedAccess s kind base len run = .next (run s) := by
  simp [checkedAccess, accessFault_eq_none.2 h]

/-- Out of range, the cycle faults. -/
theorem checkedAccess_of_not_inRange {s : State} {kind : AccessKind} {base len : Nat} (run : State → State)
    (h : ¬ InRange s base len) : checkedAccess s kind base len run = .fault (.addrFault kind (offendingAddr base)) := by
  simp [checkedAccess, accessFault_eq_some.2 ⟨h, rfl⟩]

/-- A checked access that goes on was in range and ran. -/
theorem checkedAccess_next {s t : State} {kind : AccessKind} {base len : Nat} {run : State → State}
    (h : checkedAccess s kind base len run = .next t) : InRange s base len ∧ t = run s := by
  by_cases hr : InRange s base len
  · rw [checkedAccess_of_inRange run hr] at h
    exact ⟨hr, by injection h with h; exact h.symm⟩
  · rw [checkedAccess_of_not_inRange run hr] at h
    cases h

/-! ### Stores and loads of several bytes (R99, R101, R102) -/

/-- A store of several bytes changes memory and nothing else. -/
theorem storeBytes_fields (s : State) (base : Nat) (bytes : Nat → Byte) (len : Nat) :
    storeBytes s base bytes len = s.setMem (storeBytes s base bytes len).mem := by
  induction len with
  | zero => rfl
  | succ n ih =>
    simp only [storeBytes]
    rw [ih]
    rfl

theorem storeBytes_wf {s : State} (hw : s.mem.wf = true) (base : Nat) (bytes : Nat → Byte) (len : Nat) :
    (storeBytes s base bytes len).mem.wf = true := by
  induction len with
  | zero => exact hw
  | succ n ih => exact setByte_wf ih _ _

/-- Bytes outside the stored cells keep their values. -/
theorem storeBytes_read_outside (s : State) (base : Nat) (bytes : Nat → Byte) {len a : Nat}
    (h : ∀ k, k < len → a ≠ cellOf (base + k)) : (storeBytes s base bytes len).mem.read a = s.mem.read a := by
  induction len with
  | zero => rfl
  | succ n ih =>
    simp only [storeBytes, setByte_mem]
    rw [Memory.read_write_ne _ _ (h n (by omega)), ih (fun k hk => h k (by omega))]

/-- Two different offsets below 4096 reach different cells. -/
theorem cellOf_add_ne {base j k : Nat} (hj : j < k) (hk : k < 4096) : cellOf (base + j) ≠ cellOf (base + k) := by
  unfold cellOf
  omega

/-- Byte `k` of a store of at most 4096 bytes is found at its cell. -/
theorem storeBytes_byteAt {s : State} (hw : s.mem.wf = true) (base : Nat) (bytes : Nat → Byte) {len k : Nat}
    (hk : k < len) (hl : len ≤ 4096) : (storeBytes s base bytes len).byteAt (base + k) = bytes k := by
  induction len with
  | zero => omega
  | succ n ih =>
    simp only [storeBytes]
    rw [setByte_byteAt (storeBytes_wf hw _ _ _)]
    by_cases h : k = n
    · subst h; simp
    · rw [if_neg (cellOf_add_ne (by omega) (by omega)), ih (by omega) (by omega)]

/-- A load of several registers changes V and nothing else. -/
theorem loadRegs_fields (s : State) (base len : Nat) :
    loadRegs s base len = { s with v := (loadRegs s base len).v } := by
  induction len with
  | zero => rfl
  | succ n ih =>
    simp only [loadRegs]
    rw [ih]
    rfl

/-- Register `r` after a load of the first `len` registers, `len` at most 16. -/
theorem loadRegs_reg (s : State) (base : Nat) {len : Nat} (hl : len ≤ 16) (r : Reg) :
    (loadRegs s base len).reg r = if r.val < len then s.byteAt (base + r.val) else s.reg r := by
  induction len with
  | zero => simp [loadRegs]
  | succ n ih =>
    have hv : (Fin.ofNat 16 n : Fin 16).val = n := Nat.mod_eq_of_lt (by omega)
    simp only [loadRegs]
    rw [setReg_reg, ih (by omega)]
    by_cases h : r = Fin.ofNat 16 n
    · have hr : r.val = n := by rw [h, hv]
      rw [if_pos h, if_pos (by omega), hr]
    · have hr : r.val ≠ n := fun e => h (Fin.ext (by rw [e, hv]))
      rw [if_neg h]
      by_cases h2 : r.val < n
      · rw [if_pos h2, if_pos (by omega)]
      · rw [if_neg h2, if_neg (by omega)]

/-! ### The flag and the result (R80, D9) -/

/-- The write of a flag and a result changes V and nothing else. -/
theorem writeLatched_fields (s : State) (x : Reg) (flag result : Byte) :
    writeLatched s x flag result = { s with v := (writeLatched s x flag result).v } := by
  unfold writeLatched
  cases s.config.aluAlias <;> rfl

theorem writeInOrder_fields (s : State) (x y : Reg) (flag result : Byte → Byte → Byte) :
    writeInOrder s x y flag result = { s with v := (writeInOrder s x y flag result).v } := by
  unfold writeInOrder writeLatched
  cases h : s.config.aluAlias <;> simp only <;> rfl

/-- Registers other than the destination and VF keep their values. -/
theorem writeLatched_reg_other (s : State) {x r : Reg} (flag result : Byte) (hx : r ≠ x) (hf : r ≠ vf) :
    (writeLatched s x flag result).reg r = s.reg r := by
  unfold writeLatched
  cases s.config.aluAlias <;> simp only <;> rw [setReg_reg_ne _ _ (by assumption), setReg_reg_ne _ _ (by assumption)]

theorem writeInOrder_reg_other (s : State) {x r : Reg} (y : Reg) (flag result : Byte → Byte → Byte) (hx : r ≠ x)
    (hf : r ≠ vf) : (writeInOrder s x y flag result).reg r = s.reg r := by
  unfold writeInOrder
  cases s.config.aluAlias <;> simp only
  · rw [setReg_reg_ne _ _ hx, setReg_reg_ne _ _ hf]
  · exact writeLatched_reg_other s _ _ hx hf
  · exact writeLatched_reg_other s _ _ hx hf

/-! ### Skips and the call stack (R70, R72, R77) -/

theorem skipIf_pc (cond : Bool) (s : State) : (skipIf cond s).pc = if cond then s.pc + 2 else s.pc := by
  cases cond <;> rfl

/-- A skip changes `pc` and nothing else. -/
theorem skipIf_fields (cond : Bool) (s : State) : skipIf cond s = s.setPc (skipIf cond s).pc := by
  cases cond <;> rfl

theorem pushAndJump_of_room {s : State} (target : Word) (h : s.sp.val < 16) :
    pushAndJump target s =
      ((s.setSlot ⟨s.sp.val, h⟩ s.pc).setSp ⟨s.sp.val + 1, Nat.succ_lt_succ h⟩).setPc target := by
  simp [pushAndJump, h]

theorem pushAndJump_of_full {s : State} (target : Word) (h : s.sp.val = 16) : pushAndJump target s = s := by
  simp [pushAndJump, h]

theorem popAndJump_of_empty {s : State} (h : s.sp.val = 0) : popAndJump s = s := by
  simp [popAndJump, h]

theorem popAndJump_of_held {s : State} (h : 0 < s.sp.val) :
    popAndJump s = (s.setSp ⟨s.sp.val - 1, by omega⟩).setPc (s.stack[s.sp.val - 1]'(by omega)) := by
  simp [popAndJump, h]

/-! ### The keypad scan (R109) -/

/-- What the scan of the first `n` keys finds: the lowest pressed one, or that none is pressed. -/
theorem firstPressed_spec (s : State) {n : Nat} (hn : n ≤ 16) :
    match firstPressed s n with
    | some k => k.val < n ∧ s.key[k.val] = true ∧ ∀ j : Fin 16, j.val < k.val → s.key[j.val] = false
    | none => ∀ j : Fin 16, j.val < n → s.key[j.val] = false := by
  induction n with
  | zero => simp [firstPressed]
  | succ n ih =>
    have hv : (Fin.ofNat 16 n : Fin 16).val = n := Nat.mod_eq_of_lt (by omega)
    have ih := ih (by omega)
    cases h : firstPressed s n with
    | some k =>
      rw [h] at ih
      simp only [firstPressed, h]
      exact ⟨by omega, ih.2⟩
    | none =>
      rw [h] at ih
      cases hk : s.key[(Fin.ofNat 16 n : Fin 16).val] with
      | true =>
        simp only [firstPressed, h, hk, if_true]
        exact ⟨by omega, trivial, fun j hj => ih j (by omega)⟩
      | false =>
        simp only [firstPressed, h, hk, Bool.false_eq_true, if_false]
        intro j hj
        by_cases e : j.val = n
        · have : j = Fin.ofNat 16 n := Fin.ext (by rw [e, hv])
          rw [this]
          exact hk
        · exact ih j (by omega)

end Sys2Proof.Machine
end

