-- ==== Sys2Proof/Laws/Display.lean ====
section
/-!
SUPPORT. The framebuffer: one cell after one toggle, and which fields a draw changes.
-/
namespace Sys2Proof.Machine

/-- A cell after a toggle: the toggled one is inverted, every other one is as before. -/
theorem toggle_cell (fb : Framebuffer) (r r' : Fin 32) (c c' : Fin 64) :
    (fb.toggle r c).cell r' c' = if r' = r ∧ c' = c then !fb.cell r' c' else fb.cell r' c' := by
  unfold Framebuffer.toggle Framebuffer.cell
  by_cases hr : r' = r
  · subst hr
    by_cases hc : c' = c
    · subst hc; simp
    · have h : c.val ≠ c'.val := fun e => hc (Fin.ext e.symm)
      simp [h, hc]
  · have h : r.val ≠ r'.val := fun e => hr (Fin.ext e.symm)
    simp [h, hr]

@[simp] theorem clearScreen_cell (r : Fin 32) (c : Fin 64) : clearScreen.cell r c = false := by
  simp [clearScreen, Framebuffer.cell]

/-- Two framebuffers with the same cells are the same. -/
theorem fb_ext {f g : Framebuffer} (h : ∀ r c, f.cell r c = g.cell r c) : f = g := by
  apply Vector.ext
  intro r hr
  apply Vector.ext
  intro c hc
  exact h ⟨r, hr⟩ ⟨c, hc⟩

/-- A draw changes VF and the framebuffer and nothing else. -/
theorem drawSprite_fields (x y : Reg) (n : Nat) (s : State) :
    drawSprite x y n s = (s.setReg vf ((drawSprite x y n s).reg vf)).setFb (drawSprite x y n s).fb := by
  simp [drawSprite]

end Sys2Proof.Machine
end

