-- ==== Sys2Proof/Laws/Encoding.lean ====
section
/-!
SUPPORT. The fields of a word built by a format are what the format put there (R46, R47).
-/
namespace Sys2Proof

/-- A field as a number: what lies `start` bits up, `len` bits wide. -/
theorem field_toNat (op : Word) (start len : Nat) : (op.extractLsb' start len).toNat = op.toNat / 2 ^ start % 2 ^ len := by
  simp [BitVec.extractLsb'_toNat, Nat.shiftRight_eq_div_pow]

theorem fmtNNN_toNat (f : BitVec 4) (nnn : BitVec 12) : (fmtNNN f nnn).toNat = f.toNat * 4096 + nnn.toNat := by
  unfold fmtNNN
  rw [BitVec.toNat_append, ← Nat.shiftLeft_add_eq_or_of_lt nnn.isLt, Nat.shiftLeft_eq]

theorem fmtXKK_toNat (f : BitVec 4) (x : Reg) (kk : Byte) :
    (fmtXKK f x kk).toNat = f.toNat * 4096 + x.val * 256 + kk.toNat := by
  unfold fmtXKK
  rw [BitVec.toNat_append, BitVec.toNat_append, ← Nat.shiftLeft_add_eq_or_of_lt kk.isLt,
    ← Nat.shiftLeft_add_eq_or_of_lt (nibble x).isLt, Nat.shiftLeft_eq, Nat.shiftLeft_eq]
  simp only [nibble, BitVec.toNat_ofFin]
  omega

theorem fmtXYN_toNat (f : BitVec 4) (x y n : Fin 16) :
    (fmtXYN f x y n).toNat = f.toNat * 4096 + x.val * 256 + y.val * 16 + n.val := by
  unfold fmtXYN
  rw [BitVec.toNat_append, BitVec.toNat_append, BitVec.toNat_append, ← Nat.shiftLeft_add_eq_or_of_lt (nibble n).isLt,
    ← Nat.shiftLeft_add_eq_or_of_lt (nibble y).isLt, ← Nat.shiftLeft_add_eq_or_of_lt (nibble x).isLt, Nat.shiftLeft_eq,
    Nat.shiftLeft_eq, Nat.shiftLeft_eq]
  simp only [nibble, BitVec.toNat_ofFin]
  omega

/-! ### Each field as arithmetic on the word -/

theorem opFam_eq (op : Word) : opFam op = op.toNat / 4096 := by
  unfold opFam
  rw [field_toNat]
  have := op.isLt
  omega

theorem opX_val (op : Word) : (opX op).val = op.toNat / 256 % 16 := field_toNat op 8 4
theorem opY_val (op : Word) : (opY op).val = op.toNat / 16 % 16 := field_toNat op 4 4
theorem opN_val (op : Word) : (opN op).val = op.toNat % 16 := (field_toNat op 0 4).trans (by simp)
theorem opKk_toNat (op : Word) : (opKk op).toNat = op.toNat % 256 := (field_toNat op 0 8).trans (by simp)
theorem opNnn_toNat (op : Word) : (opNnn op).toNat = op.toNat % 4096 := (field_toNat op 0 12).trans (by simp)

/-! ### The fields of each format -/

section formats
variable (f : BitVec 4) (nnn : BitVec 12) (x y n : Fin 16) (kk : Byte)

@[simp] theorem opFam_fmtNNN : opFam (fmtNNN f nnn) = f.toNat := by
  rw [opFam_eq, fmtNNN_toNat]; have := nnn.isLt; omega
@[simp] theorem opNnn_fmtNNN : opNnn (fmtNNN f nnn) = nnn := by
  apply BitVec.eq_of_toNat_eq; rw [opNnn_toNat, fmtNNN_toNat]; have := nnn.isLt; omega
@[simp] theorem opKk_fmtNNN : (opKk (fmtNNN f nnn)).toNat = nnn.toNat % 256 := by
  rw [opKk_toNat, fmtNNN_toNat]; omega

@[simp] theorem opFam_fmtXKK : opFam (fmtXKK f x kk) = f.toNat := by
  rw [opFam_eq, fmtXKK_toNat]; have := kk.isLt; omega
@[simp] theorem opX_fmtXKK : opX (fmtXKK f x kk) = x := by
  apply Fin.ext; rw [opX_val, fmtXKK_toNat]; have := kk.isLt; omega
@[simp] theorem opKk_fmtXKK : opKk (fmtXKK f x kk) = kk := by
  apply BitVec.eq_of_toNat_eq; rw [opKk_toNat, fmtXKK_toNat]; have := kk.isLt; omega

@[simp] theorem opFam_fmtXYN : opFam (fmtXYN f x y n) = f.toNat := by
  rw [opFam_eq, fmtXYN_toNat]; omega
@[simp] theorem opX_fmtXYN : opX (fmtXYN f x y n) = x := by
  apply Fin.ext; rw [opX_val, fmtXYN_toNat]; omega
@[simp] theorem opY_fmtXYN : opY (fmtXYN f x y n) = y := by
  apply Fin.ext; rw [opY_val, fmtXYN_toNat]; omega
@[simp] theorem opN_fmtXYN : opN (fmtXYN f x y n) = n := by
  apply Fin.ext; rw [opN_val, fmtXYN_toNat]; omega

end formats

/-- The byte at the lower address is the high byte (R34). -/
theorem wordOfBytes_toNat (hi lo : Byte) : (wordOfBytes hi lo).toNat = hi.toNat * 256 + lo.toNat := by
  unfold wordOfBytes
  rw [BitVec.toNat_append, ← Nat.shiftLeft_add_eq_or_of_lt lo.isLt, Nat.shiftLeft_eq]

/-- A word is the word of its two bytes. -/
@[simp] theorem wordOfBytes_bytesOfWord (op : Word) : wordOfBytes (bytesOfWord op).1 (bytesOfWord op).2 = op := by
  apply BitVec.eq_of_toNat_eq
  rw [wordOfBytes_toNat]
  simp only [bytesOfWord, field_toNat]
  have := op.isLt
  omega

end Sys2Proof
end

