-- ==== Sys2Proof/Laws/Exec.lean ====
section
/-!
SUPPORT. The four instructions that access memory, with their access check decided, and the cycle with its fetch decided.
-/
namespace Sys2Proof.Machine

section data
variable {s t : State} {x y : Reg} {n : Fin 16}

theorem exec_ldB_of_inRange (h : InRange s s.i.toNat 3) :
    exec (.ldB x) s = .next (storeBytes s s.i.toNat (bcdDigit (s.reg x)) 3) := by
  simp only [exec, execLdB, checkedAccess_of_inRange _ h]

theorem exec_ldMemVx_of_inRange (h : InRange s s.i.toNat (x.val + 1)) :
    exec (.ldMemVx x) s = .next (storeBytes s s.i.toNat (fun k => s.reg (Fin.ofNat 16 k)) (x.val + 1)) := by
  simp only [exec, execLdMemVx, checkedAccess_of_inRange _ h]

theorem exec_ldVxMem_of_inRange (h : InRange s s.i.toNat (x.val + 1)) :
    exec (.ldVxMem x) s = .next (loadRegs s s.i.toNat (x.val + 1)) := by
  simp only [exec, execLdVxMem, checkedAccess_of_inRange _ h]

theorem exec_drw_of_inRange (h : InRange s s.i.toNat n.val) : exec (.drw x y n) s = .next (drawSprite x y n.val s) :=
  checkedAccess_of_inRange _ h

/-- What a data access that goes on did. -/
theorem exec_ldB_next (h : exec (.ldB x) s = .next t) :
    InRange s s.i.toNat 3 ∧ t = storeBytes s s.i.toNat (bcdDigit (s.reg x)) 3 := by
  simp only [exec, execLdB] at h
  exact checkedAccess_next h

theorem exec_ldMemVx_next (h : exec (.ldMemVx x) s = .next t) :
    InRange s s.i.toNat (x.val + 1) ∧ t = storeBytes s s.i.toNat (fun k => s.reg (Fin.ofNat 16 k)) (x.val + 1) := by
  simp only [exec, execLdMemVx] at h
  exact checkedAccess_next h

theorem exec_ldVxMem_next (h : exec (.ldVxMem x) s = .next t) :
    InRange s s.i.toNat (x.val + 1) ∧ t = loadRegs s s.i.toNat (x.val + 1) := by
  simp only [exec, execLdVxMem] at h
  exact checkedAccess_next h

theorem exec_drw_next (h : exec (.drw x y n) s = .next t) :
    InRange s s.i.toNat n.val ∧ t = drawSprite x y n.val s := checkedAccess_next h

end data

/-- A step with no operation waiting is a cycle. -/
theorem step_eq_runCycle {s : State} (h : s.schedule = []) : step s = runCycle s := by
  simp [step, performNext, h]

/-- A step with an operation waiting performs it. -/
theorem step_eq_perform {s : State} {op : Operation} {rest : List Operation} (h : s.schedule = op :: rest) :
    step s = perform op (s.setSchedule rest) := by
  simp [step, performNext, h]

/-- A step whose operation is a cycle, asked for or taken because no operation waits. -/
theorem step_of_cycleIsNext {s : State} {rest : List Operation} (h : CycleIsNext s rest) :
    step s = runCycle (s.setSchedule rest) := by
  rcases h with ⟨h, rfl⟩ | h
  · rw [step_eq_runCycle h, ← h]
    rfl
  · rw [step_eq_perform h]
    rfl

/-- A cycle whose fetch is in range. -/
theorem runCycle_of_inRange {s : State} (h : InRange s s.pc.toNat 2) :
    runCycle s = exec (decode (fetchWord s)) (advance s) := by
  simp [runCycle, fetchFault, accessFault_eq_none.2 h]

/-- A cycle whose fetch is out of range. -/
theorem runCycle_of_not_inRange {s : State} (h : ¬ InRange s s.pc.toNat 2) :
    runCycle s = .fault (.addrFault .fetch (offendingAddr s.pc.toNat)) := by
  simp [runCycle, fetchFault, accessFault_eq_some.2 ⟨h, rfl⟩]

/-- A cycle that goes on fetched in range and executed. -/
theorem runCycle_next {s t : State} (h : runCycle s = .next t) :
    InRange s s.pc.toNat 2 ∧ exec (decode (fetchWord s)) (advance s) = .next t := by
  by_cases hr : InRange s s.pc.toNat 2
  · exact ⟨hr, runCycle_of_inRange hr ▸ h⟩
  · rw [runCycle_of_not_inRange hr] at h
    cases h

end Sys2Proof.Machine
end

