-- ==== Sys2Proof/Laws/PerInstr.lean ====
section
/-!
SUPPORT. A statement about every instruction as data, one lemma per constructor: the encoder writes the instruction into its
own primary family, the top nibble of its pattern in R51 (R49).
-/
namespace Sys2Proof.Laws.PrimaryFamily

/-- The top nibbles the words of an instruction have (R51); the catch-all has words in three families (R54). -/
def families : Instr → List Nat
  | .sys _ => [0x0]
  | .cls => [0x0]
  | .ret => [0x0]
  | .jp _ => [0x1]
  | .call _ => [0x2]
  | .seImm _ _ => [0x3]
  | .sneImm _ _ => [0x4]
  | .seReg _ _ => [0x5]
  | .ldImm _ _ => [0x6]
  | .addImm _ _ => [0x7]
  | .ldReg _ _ => [0x8]
  | .orReg _ _ => [0x8]
  | .andReg _ _ => [0x8]
  | .xorReg _ _ => [0x8]
  | .addReg _ _ => [0x8]
  | .sub _ _ => [0x8]
  | .shr _ => [0x8]
  | .subn _ _ => [0x8]
  | .shl _ => [0x8]
  | .sneReg _ _ => [0x9]
  | .ldI _ => [0xA]
  | .jpV0 _ => [0xB]
  | .rnd _ _ => [0xC]
  | .drw _ _ _ => [0xD]
  | .skp _ => [0xE]
  | .sknp _ => [0xE]
  | .ldVxDt _ => [0xF]
  | .ldVxK _ => [0xF]
  | .ldDtVx _ => [0xF]
  | .ldStVx _ => [0xF]
  | .addI _ => [0xF]
  | .ldF _ => [0xF]
  | .ldB _ => [0xF]
  | .ldMemVx _ => [0xF]
  | .ldVxMem _ => [0xF]
  | .unrecognized _ => [0x8, 0xE, 0xF]

/-- The word of a well-formed instruction lies in the instruction's own family. -/
def Statement (i : Instr) : Prop := WellFormed i → opFam (encode i) ∈ families i

/-- The words R54 lists outside family 0 are of families 8, E and F. -/
theorem unrecognized_families {op : Word} (h : isUnrecognizedWord op = true) : opFam op ∈ [0x8, 0xE, 0xF] := by
  rw [opFam_eq]
  unfold isUnrecognizedWord at h
  simp only at h
  split at h <;> simp_all

theorem sys (nnn : BitVec 12) : Statement (.sys nnn) := fun _ => by simp [encode, families]
theorem cls : Statement .cls := fun _ => by simp [encode, families]
theorem ret : Statement .ret := fun _ => by simp [encode, families]
theorem jp (nnn : BitVec 12) : Statement (.jp nnn) := fun _ => by simp [encode, families]
theorem call (nnn : BitVec 12) : Statement (.call nnn) := fun _ => by simp [encode, families]
theorem seImm (x : Reg) (kk : Byte) : Statement (.seImm x kk) := fun _ => by simp [encode, families]
theorem sneImm (x : Reg) (kk : Byte) : Statement (.sneImm x kk) := fun _ => by simp [encode, families]
theorem seReg (x y : Reg) : Statement (.seReg x y) := fun _ => by simp [encode, families]
theorem ldImm (x : Reg) (kk : Byte) : Statement (.ldImm x kk) := fun _ => by simp [encode, families]
theorem addImm (x : Reg) (kk : Byte) : Statement (.addImm x kk) := fun _ => by simp [encode, families]
theorem ldReg (x y : Reg) : Statement (.ldReg x y) := fun _ => by simp [encode, families]
theorem orReg (x y : Reg) : Statement (.orReg x y) := fun _ => by simp [encode, families]
theorem andReg (x y : Reg) : Statement (.andReg x y) := fun _ => by simp [encode, families]
theorem xorReg (x y : Reg) : Statement (.xorReg x y) := fun _ => by simp [encode, families]
theorem addReg (x y : Reg) : Statement (.addReg x y) := fun _ => by simp [encode, families]
theorem sub (x y : Reg) : Statement (.sub x y) := fun _ => by simp [encode, families]
theorem shr (x : Reg) : Statement (.shr x) := fun _ => by simp [encode, families]
theorem subn (x y : Reg) : Statement (.subn x y) := fun _ => by simp [encode, families]
theorem shl (x : Reg) : Statement (.shl x) := fun _ => by simp [encode, families]
theorem sneReg (x y : Reg) : Statement (.sneReg x y) := fun _ => by simp [encode, families]
theorem ldI (nnn : BitVec 12) : Statement (.ldI nnn) := fun _ => by simp [encode, families]
theorem jpV0 (nnn : BitVec 12) : Statement (.jpV0 nnn) := fun _ => by simp [encode, families]
theorem rnd (x : Reg) (kk : Byte) : Statement (.rnd x kk) := fun _ => by simp [encode, families]
theorem drw (x y : Reg) (n : Fin 16) : Statement (.drw x y n) := fun _ => by simp [encode, families]
theorem skp (x : Reg) : Statement (.skp x) := fun _ => by simp [encode, families]
theorem sknp (x : Reg) : Statement (.sknp x) := fun _ => by simp [encode, families]
theorem ldVxDt (x : Reg) : Statement (.ldVxDt x) := fun _ => by simp [encode, families]
theorem ldVxK (x : Reg) : Statement (.ldVxK x) := fun _ => by simp [encode, families]
theorem ldDtVx (x : Reg) : Statement (.ldDtVx x) := fun _ => by simp [encode, families]
theorem ldStVx (x : Reg) : Statement (.ldStVx x) := fun _ => by simp [encode, families]
theorem addI (x : Reg) : Statement (.addI x) := fun _ => by simp [encode, families]
theorem ldF (x : Reg) : Statement (.ldF x) := fun _ => by simp [encode, families]
theorem ldB (x : Reg) : Statement (.ldB x) := fun _ => by simp [encode, families]
theorem ldMemVx (x : Reg) : Statement (.ldMemVx x) := fun _ => by simp [encode, families]
theorem ldVxMem (x : Reg) : Statement (.ldVxMem x) := fun _ => by simp [encode, families]
theorem unrecognized (op : Word) : Statement (.unrecognized op) := fun h => unrecognized_families h

end Sys2Proof.Laws.PrimaryFamily
end

