-- ==== Sys2Proof/Laws/Schedule.lean ====
section
/-!
SUPPORT. No operation reads or writes the operations still to perform; what one operation does to a run.
-/
namespace Sys2Proof.Machine

/-- An outcome with its next state replaced. -/
def mapNext (f : State → State) : Host.Outcome State Fault Refusal → Host.Outcome State Fault Refusal
  | .next t => .next (f t)
  | .fault q => .fault q
  | .refused q => .refused q

@[simp] theorem mapNext_next (f : State → State) (t : State) : mapNext f (.next t) = .next (f t) := rfl

section setSchedule
variable (s : State) (ops : List Operation)

theorem storeBytes_setSchedule (base : Nat) (bytes : Nat → Byte) (len : Nat) :
    storeBytes (s.setSchedule ops) base bytes len = (storeBytes s base bytes len).setSchedule ops := by
  induction len with
  | zero => rfl
  | succ n ih => simp only [storeBytes, ih]; rfl

theorem loadRegs_setSchedule (base len : Nat) :
    loadRegs (s.setSchedule ops) base len = (loadRegs s base len).setSchedule ops := by
  induction len with
  | zero => rfl
  | succ n ih => simp only [loadRegs, ih]; rfl

theorem firstPressed_setSchedule (n : Nat) : firstPressed (s.setSchedule ops) n = firstPressed s n := by
  induction n with
  | zero => rfl
  | succ n ih => simp only [firstPressed, ih]; rfl

theorem skipIf_setSchedule (cond : Bool) : skipIf cond (s.setSchedule ops) = (skipIf cond s).setSchedule ops := by
  cases cond <;> rfl

theorem pushAndJump_setSchedule (target : Word) :
    pushAndJump target (s.setSchedule ops) = (pushAndJump target s).setSchedule ops := by
  by_cases h : s.sp.val < 16
  · rw [pushAndJump_of_room (s := s) target h, pushAndJump_of_room (s := s.setSchedule ops) target h]
    rfl
  · have h : s.sp.val = 16 := by omega
    rw [pushAndJump_of_full (s := s) target h, pushAndJump_of_full (s := s.setSchedule ops) target h]

theorem popAndJump_setSchedule : popAndJump (s.setSchedule ops) = (popAndJump s).setSchedule ops := by
  by_cases h : 0 < s.sp.val
  · rw [popAndJump_of_held (s := s) h, popAndJump_of_held (s := s.setSchedule ops) h]
    rfl
  · have h : s.sp.val = 0 := by omega
    rw [popAndJump_of_empty (s := s) h, popAndJump_of_empty (s := s.setSchedule ops) h]

theorem writeLatched_setSchedule (x : Reg) (flag result : Byte) :
    writeLatched (s.setSchedule ops) x flag result = (writeLatched s x flag result).setSchedule ops := by
  simp only [writeLatched, setSchedule_config]
  cases s.config.aluAlias <;> rfl

theorem writeInOrder_setSchedule (x y : Reg) (flag result : Byte → Byte → Byte) :
    writeInOrder (s.setSchedule ops) x y flag result = (writeInOrder s x y flag result).setSchedule ops := by
  simp only [writeInOrder, setSchedule_config, setSchedule_reg, writeLatched_setSchedule]
  cases s.config.aluAlias <;> rfl

theorem checkedAccess_setSchedule (kind : AccessKind) (base len : Nat) {run : State → State}
    (h : run (s.setSchedule ops) = (run s).setSchedule ops) :
    checkedAccess (s.setSchedule ops) kind base len run = mapNext (·.setSchedule ops) (checkedAccess s kind base len run) := by
  unfold checkedAccess
  rw [accessFault_congr (setSchedule_config s ops), h]
  cases accessFault s kind base len <;> rfl

/-- The wait, with the scan taken out of it. -/
theorem execLdVxK_setSchedule (x : Reg) : execLdVxK x (s.setSchedule ops) = mapNext (·.setSchedule ops) (execLdVxK x s) := by
  unfold execLdVxK
  rw [firstPressed_setSchedule]
  generalize firstPressed s 16 = found
  cases found <;> rfl

/-- An instruction neither reads nor writes the operations still to perform. -/
theorem exec_setSchedule (i : Instr) : exec i (s.setSchedule ops) = mapNext (·.setSchedule ops) (exec i s) := by
  cases i with
  | drw x y n => exact checkedAccess_setSchedule s ops .dataRead s.i.toNat n.val (run := drawSprite x y n.val) rfl
  | ldB x =>
    exact checkedAccess_setSchedule s ops .dataWrite s.i.toNat 3
      (run := fun s => storeBytes s s.i.toNat (bcdDigit (s.reg x)) 3) (storeBytes_setSchedule s ops _ _ _)
  | ldMemVx x =>
    exact checkedAccess_setSchedule s ops .dataWrite s.i.toNat (x.val + 1)
      (run := fun s => storeBytes s s.i.toNat (fun k => s.reg (Fin.ofNat 16 k)) (x.val + 1)) (storeBytes_setSchedule s ops _ _ _)
  | ldVxMem x =>
    exact checkedAccess_setSchedule s ops .dataRead s.i.toNat (x.val + 1)
      (run := fun s => loadRegs s s.i.toNat (x.val + 1)) (loadRegs_setSchedule s ops _ _)
  | ret => exact congrArg Host.Outcome.next (popAndJump_setSchedule s ops)
  | call nnn => exact congrArg Host.Outcome.next (pushAndJump_setSchedule s ops _)
  | ldVxK x => exact execLdVxK_setSchedule s ops x
  | rnd x kk =>
    simp only [exec, execRnd, setSchedule_config]
    cases s.config.cxkk <;> rfl
  | addReg x y => exact congrArg Host.Outcome.next (writeLatched_setSchedule s ops _ _ _)
  | sub x y | subn x y => exact congrArg Host.Outcome.next (writeInOrder_setSchedule s ops _ _ _ _)
  | shr x | shl x => exact congrArg Host.Outcome.next (writeInOrder_setSchedule s ops _ _ _ _)
  | seImm x kk | sneImm x kk => exact congrArg Host.Outcome.next (skipIf_setSchedule s ops _)
  | seReg x y | sneReg x y => exact congrArg Host.Outcome.next (skipIf_setSchedule s ops _)
  | skp x | sknp x => exact congrArg Host.Outcome.next (skipIf_setSchedule s ops _)
  | _ => rfl

/-- A cycle neither reads nor writes the operations still to perform. -/
theorem runCycle_setSchedule : runCycle (s.setSchedule ops) = mapNext (·.setSchedule ops) (runCycle s) := by
  by_cases h : InRange s s.pc.toNat 2
  · rw [runCycle_of_inRange (s := s) h, runCycle_of_inRange (s := s.setSchedule ops) h]
    exact exec_setSchedule (advance s) ops _
  · rw [runCycle_of_not_inRange (s := s) h, runCycle_of_not_inRange (s := s.setSchedule ops) h]
    rfl

/-- No operation reads or writes the operations still to perform (R5: each is one atomic transition of the machine's state). -/
theorem perform_setSchedule (op : Operation) :
    perform op (s.setSchedule ops) = mapNext (·.setSchedule ops) (perform op s) := by
  cases op with
  | runCycle => exact runCycle_setSchedule s ops
  | loadProgram bytes =>
    unfold perform loadProgram
    by_cases h : bytes.length > 3584
    · simp only [if_pos h]
      rfl
    · simp only [if_neg h]
      rfl
  | setKey index pressed =>
    simp only [perform, setKeyAt]
    split <;> rfl
  | initializeMachine | tickTimers | framebufferView => rfl

end setSchedule

/-- A step performs the oldest waiting operation, and the others keep waiting. -/
theorem step_cons {s : State} {op : Operation} {rest : List Operation} (h : s.schedule = op :: rest) :
    step s = mapNext (·.setSchedule rest) (perform op s) := by
  rw [step_eq_perform h, perform_setSchedule]

/-- The operations still to perform stay as they are over any operation. -/
theorem perform_schedule {s t : State} {op : Operation} (h : perform op s = .next t) : t.schedule = s.schedule := by
  have h1 := perform_setSchedule s s.schedule op
  rw [show s.setSchedule s.schedule = s from rfl, h, mapNext_next] at h1
  injection h1 with h1
  rw [h1]
  rfl

/-! ### Runs (R124, R130, R162) -/

@[simp] theorem runningAt_state (s : State) : (runningAt s).state = s := rfl
@[simp] theorem runningAt_stop (s : State) : (runningAt s).stop = none := rfl
@[simp] theorem runningAt_outcome (s : State) : (runningAt s).outcome = .next s := rfl

/-- A run tells the outcome of its latest transition. -/
@[simp] theorem runFrom_outcome (s : State) (o : Host.Outcome State Fault Refusal) : (runFrom s o).outcome = o := by
  cases o <;> rfl

/-- A run has a next state exactly when it stands at no stop. -/
theorem outcome_eq_next {r : Run} {t : State} : r.outcome = .next t ↔ r = runningAt t := by
  obtain ⟨s, stop⟩ := r
  rcases stop with _ | f | q <;> simp [Run.outcome, runningAt]

/-- Everything one operation can do to a run. -/
theorem performOn_cases (op : Operation) (r : Run) :
    (r.stop = none ∧ performOn op r = runFrom r.state (perform op r.state)) ∨
    (r.stop ≠ none ∧ op = .initializeMachine ∧ performOn op r = runningAt (initializeMachine r.state)) ∨
    (r.stop ≠ none ∧ op ≠ .initializeMachine ∧ performOn op r = r) := by
  unfold performOn
  cases h : r.stop with
  | none => exact .inl ⟨rfl, rfl⟩
  | some stop =>
    right
    cases op with
    | initializeMachine => exact .inl ⟨by simp, rfl, rfl⟩
    | loadProgram _ | runCycle | tickTimers | setKey _ _ | framebufferView => exact .inr ⟨by simp, by simp, rfl⟩

/-- An initialization is met alike at a stop and in a run that goes on. -/
theorem performOn_initializeMachine (r : Run) : performOn .initializeMachine r = runningAt (initializeMachine r.state) := by
  unfold performOn
  cases r.stop <;> rfl

theorem runAfter_succ {sched : Schedule} {n : Nat} {op : Operation} (s : State) (h : sched.operation n = some op) :
    sched.runAfter s (n + 1) = performOn op (sched.runAfter s n) := by
  simp [Schedule.runAfter, h]

/-- A run with other operations still to perform. -/
def withOperations (ops : List Operation) (r : Run) : Run := ⟨r.state.setSchedule ops, r.stop⟩

/-- One operation of a schedule neither reads nor writes the operations still to perform, at a stop as well. -/
theorem performOn_withOperations (op : Operation) (ops : List Operation) (r : Run) :
    performOn op (withOperations ops r) = withOperations ops (performOn op r) := by
  obtain ⟨s, stop⟩ := r
  cases stop with
  | none =>
    simp only [performOn, withOperations]
    rw [perform_setSchedule]
    cases perform op s <;> rfl
  | some stop => cases op <;> rfl

/-- A step of a run performs the oldest waiting operation, at a stop as well, and the others keep waiting. -/
theorem stepRun_withOperations_cons (op : Operation) (rest : List Operation) (r : Run) :
    stepRun (withOperations (op :: rest) r) = withOperations rest (performOn op r) := by
  rw [← performOn_withOperations]
  obtain ⟨s, stop⟩ := r
  cases stop with
  | none =>
    simp only [stepRun, performOn, withOperations]
    rw [step_eq_perform (s := s.setSchedule (op :: rest)) (op := op) (rest := rest) rfl]
    rfl
  | some stop => rfl

end Sys2Proof.Machine
end

