-- ==== Sys2Proof/Tests/Slice0.lean ====
section
/-!
SUPPORT. The model's own tests: the well-formedness checks, a written-out word for every constructor, one step of every
instruction with the values of 95_test_vectors.md, and a witness for the hypotheses of every statement.
-/
namespace Sys2Proof.Tests
open Sys2Proof Sys2Proof.Machine Sys2Proof.Claims

/-! ### Helpers -/

/-- The next state of an outcome, if it is one. -/
def next? : Host.Outcome State Fault Refusal → Option State
  | .next t => some t
  | .fault _ | .refused _ => none

/-- The fault of an outcome, if it is one. -/
def fault? : Host.Outcome State Fault Refusal → Option Fault
  | .fault f => some f
  | .next _ | .refused _ => none

/-- The state after one cycle that runs the word `op`. -/
def after (s : State) (op : Nat) : Option State := next? (step (s.withFetchWord 16 op))

/-- One look at the state after the word `op`. -/
def look {α : Type} (s : State) (op : Nat) (f : State → α) : Option α := (after s op).map f

/-- The reset state with some registers set. -/
def regs (l : List (Reg × Byte)) : State := l.foldl (fun s p => s.setReg p.1 p.2) State.reset

/-- A state with bytes at an address. -/
def bytesAt (a : Nat) (l : List Byte) (s : State) : State := s.setMem (s.mem.writeList a l)

/-- A state under another `ALU_ALIAS_MODE`. -/
def inMode (m : AluAliasMode) (s : State) : State := { s with config := { s.config with aluAlias := m } }

/-- A state under `wrap12`. -/
def wrapping (s : State) : State := { s with config := { s.config with oob := .wrap12 } }

/-! ### Well-formedness refuses each ill-formed term -/

theorem test_wf_refuses_sys_00E0 : ¬ WellFormed (.sys 0x0E0) := by decide
theorem test_wf_refuses_sys_x_EE : ¬ WellFormed (.sys 0xFEE) := by decide
theorem test_wf_refuses_unrecognized_family8 : ¬ WellFormed (.unrecognized 0x812E) := by decide
theorem test_wf_refuses_unrecognized_familyE : ¬ WellFormed (.unrecognized 0xE39E) := by decide
theorem test_wf_refuses_unrecognized_familyF : ¬ WellFormed (.unrecognized 0xF365) := by decide
theorem test_wf_refuses_unrecognized_family0 : ¬ WellFormed (.unrecognized 0x0000) := by decide
theorem test_wf_refuses_unrecognized_family5 : ¬ WellFormed (.unrecognized 0x5127) := by decide
theorem test_wf_accepts_the_catch_alls :
    WellFormed (.sys 0x0E1) ∧ WellFormed (.unrecognized 0x812F) ∧ WellFormed (.unrecognized 0xE39F) ∧
    WellFormed (.unrecognized 0xF366) := by decide

/-! ### A written-out word for every constructor: the bits of R46 under the patterns of R51 -/

theorem test_decode_sys : decode 0b0000_0001_0010_0011 = .sys 0x123 := by decide
theorem test_decode_cls : decode 0b0000_0000_1110_0000 = .cls := by decide
theorem test_decode_ret : decode 0b0000_0000_1110_1110 = .ret := by decide
theorem test_decode_jp : decode 0b0001_1010_1011_1100 = .jp 0xABC := by decide
theorem test_decode_call : decode 0b0010_1010_0110_0000 = .call 0xA60 := by decide
theorem test_decode_seImm : decode 0b0011_1111_0000_0001 = .seImm 15 0x01 := by decide
theorem test_decode_sneImm : decode 0b0100_0011_0001_0001 = .sneImm 3 0x11 := by decide
theorem test_decode_seReg : decode 0b0101_0001_0010_0000 = .seReg 1 2 := by decide
theorem test_decode_ldImm : decode 0b0110_0000_0010_1010 = .ldImm 0 0x2A := by decide
theorem test_decode_addImm : decode 0b0111_1111_0000_0001 = .addImm 15 0x01 := by decide
theorem test_decode_ldReg : decode 0b1000_0001_0010_0000 = .ldReg 1 2 := by decide
theorem test_decode_orReg : decode 0b1000_0001_0010_0001 = .orReg 1 2 := by decide
theorem test_decode_andReg : decode 0b1000_0001_0010_0010 = .andReg 1 2 := by decide
theorem test_decode_xorReg : decode 0b1000_0001_0010_0011 = .xorReg 1 2 := by decide
theorem test_decode_addReg : decode 0b1000_0001_0010_0100 = .addReg 1 2 := by decide
theorem test_decode_sub : decode 0b1000_0001_1111_0101 = .sub 1 15 := by decide
theorem test_decode_shr : decode 0b1000_0001_1010_0110 = .shr 1 := by decide
theorem test_decode_subn : decode 0b1000_0001_0010_0111 = .subn 1 2 := by decide
theorem test_decode_shl : decode 0b1000_0001_0000_1110 = .shl 1 := by decide
theorem test_decode_sneReg : decode 0b1001_0001_0010_0000 = .sneReg 1 2 := by decide
theorem test_decode_ldI : decode 0b1010_0011_0000_0000 = .ldI 0x300 := by decide
theorem test_decode_jpV0 : decode 0b1011_1111_1111_1111 = .jpV0 0xFFF := by decide
theorem test_decode_rnd : decode 0b1100_0001_0000_1111 = .rnd 1 0x0F := by decide
theorem test_decode_drw : decode 0b1101_0000_0001_0101 = .drw 0 1 5 := by decide
theorem test_decode_skp : decode 0b1110_0000_1001_1110 = .skp 0 := by decide
theorem test_decode_sknp : decode 0b1110_0000_1010_0001 = .sknp 0 := by decide
theorem test_decode_ldVxDt : decode 0b1111_0001_0000_0111 = .ldVxDt 1 := by decide
theorem test_decode_ldVxK : decode 0b1111_0101_0000_1010 = .ldVxK 5 := by decide
theorem test_decode_ldDtVx : decode 0b1111_0000_0001_0101 = .ldDtVx 0 := by decide
theorem test_decode_ldStVx : decode 0b1111_0000_0001_1000 = .ldStVx 0 := by decide
theorem test_decode_addI : decode 0b1111_0010_0001_1110 = .addI 2 := by decide
theorem test_decode_ldF : decode 0b1111_1010_0010_1001 = .ldF 10 := by decide
theorem test_decode_ldB : decode 0b1111_0000_0011_0011 = .ldB 0 := by decide
theorem test_decode_ldMemVx : decode 0b1111_0001_0101_0101 = .ldMemVx 1 := by decide
theorem test_decode_ldVxMem : decode 0b1111_0010_0110_0101 = .ldVxMem 2 := by decide
theorem test_decode_unrecognized : decode 0b1000_0000_0000_1000 = .unrecognized 0x8008 := by decide

/-- DV-07, DV-08, DV-09, DV-10: the don't-care bits of R52. -/
theorem test_decode_dont_care_bits :
    decode 0x01E0 = .cls ∧ decode 0x0FEE = .ret ∧ decode 0x5127 = .seReg 1 2 ∧ decode 0x9AB5 = .sneReg 10 11 ∧
    decode 0x81AE = .shl 1 := by decide

/-- R34: the byte at the lower address is the high byte; a single byte is no instruction. -/
theorem test_decode_bytes :
    decodeBytes [0x60, 0x2A, 0x77] = .ok (.ldImm 0 0x2A, [0x77]) ∧ decodeBytes [0x2A, 0x60] = .ok (.call 0xA60, []) ∧
    decodeBytes [0x60] = .error (.secondByteMissing 0x60) ∧ decodeBytes [] = .error .noByte := by decide

theorem test_decode_table_word :
    decodeTableWord 16 0xD015 = some (.drw 0 1 5) ∧ decodeTableWord 8 0xE0 = some .cls := by decide

/-- Lines of the programs P1 to P5, and R58's data directive. -/
theorem test_assembly :
    (([0x60FF, 0xA300, 0x220A, 0xF265, 0xF033, 0x00EE, 0x8104, 0x3000, 0x800F] : List Word).map (fun w => assembly (decode w))) =
      ["LD V0, 0xFF", "LD I, 0x300", "CALL 0x20A", "LD V2, [I]", "LD B, V0", "RET", "ADD V1, V0", "SE V0, 0x00", "DW 0x800F"] := by
  decide

/-! ### One step of every instruction; the expected values are those of the vector named -/

/-- DV-05. -/
theorem test_sys : look State.reset 0x0123 (fun s => (s.pc, s.sp, s.i)) = some (0x202, 0, 0) := by decide
/-- DV-03. -/
theorem test_unrecognized : look (regs [(0, 0x11)]) 0x8008 (fun s => (s.pc, s.reg 0, s.reg 15)) = some (0x202, 0x11, 0) := by decide
/-- DV-68. -/
theorem test_cls : look ((regs [(15, 1)]).setFb ((State.reset.fb.toggle 5 5).toggle 31 63)) 0x00E0
    (fun s => (s.fb.cell 5 5, s.fb.cell 31 63, s.reg 15)) = some (false, false, 1) := by decide
/-- DV-15. -/
theorem test_ret : look (((State.reset.setPc 0x20C).setSp 1).setSlot 0 0x206) 0x00EE (fun s => (s.sp, s.pc, s.stack[0])) =
    some (0, 0x206, 0x206) := by decide
/-- DV-16. -/
theorem test_ret_empty : look State.reset 0x00EE (fun s => (s.sp, s.pc)) = some (0, 0x202) := by decide
/-- DV-17, DV-18. -/
theorem test_jp : look (State.reset.setPc 0x20A) 0x1204 (fun s => s.pc) = some 0x204 ∧
    look State.reset 0x1201 (fun s => s.pc) = some 0x201 := by decide
/-- DV-22. -/
theorem test_call_sixteenth : look (State.reset.setSp 15) 0x2300 (fun s => (s.stack[15], s.sp, s.pc)) =
    some (0x202, 16, 0x300) := by decide
/-- DV-21. -/
theorem test_call_full : look ((State.reset.setSp 16).setSlot 15 0xABC) 0x2300 (fun s => (s.stack[15], s.sp, s.pc)) =
    some (0xABC, 16, 0x202) := by decide
/-- DV-23. -/
theorem test_seImm : look State.reset 0x3000 (fun s => s.pc) = some 0x204 ∧
    look (regs [(0, 1)]) 0x3000 (fun s => s.pc) = some 0x202 := by decide
/-- DV-24. -/
theorem test_sneImm : look (regs [(3, 0x10)]) 0x4311 (fun s => s.pc) = some 0x204 ∧
    look (regs [(3, 0x10)]) 0x4310 (fun s => s.pc) = some 0x202 := by decide
/-- DV-25. -/
theorem test_seReg : look (regs [(1, 0x7F), (2, 0x7F)]) 0x5120 (fun s => s.pc) = some 0x204 ∧
    look (regs [(1, 0x7F), (2, 0x7E)]) 0x5120 (fun s => s.pc) = some 0x202 := by decide
/-- DV-26. -/
theorem test_sneReg : look (regs [(1, 1), (2, 2)]) 0x9120 (fun s => s.pc) = some 0x204 ∧
    look (regs [(1, 1), (2, 2)]) 0x9110 (fun s => s.pc) = some 0x202 := by decide
/-- DV-29. -/
theorem test_jpV0 : look (regs [(0, 0xFF)]) 0xBFFF (fun s => s.pc) = some 0x10FE := by decide
/-- DV-01. -/
theorem test_ldImm : look State.reset 0x602A (fun s => (s.reg 0, s.pc)) = some (0x2A, 0x202) := by decide
/-- DV-31. -/
theorem test_addImm : look (regs [(0, 0xFF), (15, 0x55)]) 0x7002 (fun s => (s.reg 0, s.reg 15)) = some (0x01, 0x55) := by decide
/-- DV-33. -/
theorem test_ldReg : look (regs [(2, 0xAB)]) 0x8120 (fun s => (s.reg 1, s.reg 2)) = some (0xAB, 0xAB) := by decide
/-- DV-34. -/
theorem test_orReg : look (regs [(1, 0xF0), (2, 0x0F), (15, 1)]) 0x8121 (fun s => (s.reg 1, s.reg 15)) = some (0xFF, 1) := by decide
/-- DV-35. -/
theorem test_andReg : look (regs [(1, 0xF0), (2, 0x3C), (15, 1)]) 0x8122 (fun s => (s.reg 1, s.reg 15)) = some (0x30, 1) := by decide
/-- DV-36. -/
theorem test_xorReg : look (regs [(1, 0xF0), (2, 0x3C), (15, 1)]) 0x8123 (fun s => (s.reg 1, s.reg 15)) = some (0xCC, 1) := by decide
/-- DV-38. -/
theorem test_addReg : look (regs [(1, 0xC8), (2, 0x64)]) 0x8124 (fun s => (s.reg 1, s.reg 15)) = some (0x2C, 1) := by decide
/-- DV-41. -/
theorem test_addReg_into_vf : look (regs [(15, 0xF0), (1, 0x20)]) 0x8F14 (fun s => s.reg 15) = some 0x10 ∧
    look (inMode .latchedFlagLast (regs [(15, 0xF0), (1, 0x20)])) 0x8F14 (fun s => s.reg 15) = some 0x01 := by decide
/-- DV-45. -/
theorem test_sub : look (regs [(1, 3), (2, 5)]) 0x8125 (fun s => (s.reg 1, s.reg 15)) = some (0xFE, 0) := by decide
/-- DV-47. -/
theorem test_sub_of_vf : look (regs [(1, 5), (15, 3)]) 0x81F5 (fun s => (s.reg 1, s.reg 15)) = some (4, 1) ∧
    look (inMode .latchedResultLast (regs [(1, 5), (15, 3)])) 0x81F5 (fun s => (s.reg 1, s.reg 15)) = some (2, 1) := by decide
/-- DV-49. -/
theorem test_subn : look (regs [(1, 3), (2, 5)]) 0x8127 (fun s => (s.reg 1, s.reg 15)) = some (2, 1) := by decide
/-- DV-51. -/
theorem test_subn_into_vf : look (regs [(15, 3), (1, 5)]) 0x8F17 (fun s => s.reg 15) = some 4 ∧
    look (inMode .latchedResultLast (regs [(15, 3), (1, 5)])) 0x8F17 (fun s => s.reg 15) = some 2 := by decide
/-- DV-10. -/
theorem test_shr : look (regs [(1, 5), (10, 0xFF)]) 0x81A6 (fun s => (s.reg 1, s.reg 15, s.reg 10)) = some (2, 1, 0xFF) := by decide
/-- DV-55. -/
theorem test_shr_of_vf : look (regs [(15, 7)]) 0x8F06 (fun s => s.reg 15) = some 0 ∧
    look (inMode .latchedResultLast (regs [(15, 7)])) 0x8F06 (fun s => s.reg 15) = some 3 := by decide
/-- DV-56. -/
theorem test_shl : look (regs [(1, 0x81)]) 0x810E (fun s => (s.reg 1, s.reg 15)) = some (2, 1) := by decide
/-- DV-57. -/
theorem test_shl_of_vf : look (regs [(15, 0xC1)]) 0x8F0E (fun s => s.reg 15) = some 2 ∧
    look (inMode .latchedFlagLast (regs [(15, 0xC1)])) 0x8F0E (fun s => s.reg 15) = some 1 := by decide
/-- DV-58: a zero mask gives 0 for every draw, and the whole mask the draw itself. -/
theorem test_rnd (s : State) (h : s.config.cxkk = .rnd) :
    (next? (exec (.rnd 1 0x00) s)).map (fun t => t.reg 1) = some 0 ∧
    (next? (exec (.rnd 1 0xFF) s)).map (fun t => t.reg 1) = some (Config.draw8 s.draws) := by
  have hf : ∀ b : Byte, b &&& 255#8 = b := fun b => BitVec.and_allOnes
  simp [exec, execRnd, h, next?, State.countDraw, State.reg, State.setReg, hf]
/-- DV-12. -/
theorem test_rnd_ignored : look { State.reset with config := { defaultConfig with cxkk := .ignore } } 0xC1FF
    (fun s => (s.pc, s.reg 1, s.draws)) = some (0x202, 0, 0) := by decide
/-- R96's example. -/
theorem test_ldI : look State.reset 0xA300 (fun s => s.i) = some 0x300 := by decide
/-- R97's corner cases. -/
theorem test_addI : look ((regs [(2, 1), (15, 7)]).setI 0x0FFF) 0xF21E (fun s => (s.i, s.reg 15)) = some (0x1000, 7) ∧
    look ((regs [(2, 1)]).setI 0xFFFF) 0xF21E (fun s => s.i) = some 0 := by decide
/-- SV-8. -/
theorem test_ldF : look (regs [(3, 0x0F)]) 0xF329 (fun s => s.i) = some 0x09B ∧
    look (regs [(3, 0xA7)]) 0xF329 (fun s => s.i) = some 0x073 := by decide
/-- SV-10. -/
theorem test_ldB : look ((regs [(0, 0xFF)]).setI 0x300) 0xF033
    (fun s => (s.byteAt 0x300, s.byteAt 0x301, s.byteAt 0x302, s.i)) = some (2, 5, 5, 0x300) := by decide
/-- DV-98. -/
theorem test_ldB_outside : fault? (step ((((regs [(0, 0xFF)]).setI 0xFFE)).withFetchWord 16 0xF033)) =
      some (.addrFault .dataWrite 0x1000) ∧
    look (wrapping ((regs [(0, 0xFF)]).setI 0xFFE)) 0xF033 (fun s => (s.byteAt 0xFFE, s.byteAt 0xFFF, s.byteAt 0)) =
      some (2, 5, 5) := by decide
/-- R101's example. -/
theorem test_ldMemVx : look ((regs [(0, 0x12), (1, 0x08), (2, 0x99)]).setI 0x208) 0xF155
    (fun s => (s.byteAt 0x208, s.byteAt 0x209, s.byteAt 0x20A, s.i)) = some (0x12, 0x08, 0, 0x208) := by decide
/-- R102's example. -/
theorem test_ldVxMem : look ((bytesAt 0x300 [2, 5, 7, 9] (regs [(3, 0x33)])).setI 0x300) 0xF265
    (fun s => (s.reg 0, s.reg 1, s.reg 2, s.reg 3)) = some (2, 5, 7, 0x33) := by decide
/-- DV-79, DV-100. -/
theorem test_ldVxMem_edge : look ((bytesAt 0xFFF [0x5A] State.reset).setI 0xFFF) 0xF065 (fun s => s.reg 0) = some 0x5A ∧
    fault? (step ((State.reset.setI 0x1000).withFetchWord 16 0xF065)) = some (.addrFault .dataRead 0x1000) := by decide
/-- DV-82. -/
theorem test_skp : look ((regs [(0, 0x1A)]).setKey 10 true) 0xE09E (fun s => s.pc) = some 0x204 ∧
    look ((regs [(0, 0x07)])) 0xE09E (fun s => s.pc) = some 0x202 := by decide
/-- DV-81. -/
theorem test_sknp : look (regs [(0, 0x07)]) 0xE0A1 (fun s => s.pc) = some 0x204 ∧
    look ((regs [(0, 0x07)]).setKey 7 true) 0xE0A1 (fun s => s.pc) = some 0x202 := by decide
/-- DV-83. -/
theorem test_ldVxDt : look (State.reset.setDt 7) 0xF107 (fun s => (s.reg 1, s.dt)) = some (7, 7) := by decide
/-- DV-87. -/
theorem test_ldVxK : look ((State.reset.setKey 3 true).setKey 9 true) 0xF50A (fun s => (s.reg 5, s.pc)) = some (3, 0x202) := by decide
/-- DV-86. -/
theorem test_ldVxK_none : look (regs [(5, 0x33)]) 0xF50A (fun s => (s.reg 5, s.pc)) = some (0x33, 0x200) := by decide
/-- DV-84. -/
theorem test_ldDtVx : look (regs [(0, 0x3C)]) 0xF015 (fun s => (s.dt, s.st)) = some (0x3C, 0) := by decide
/-- DV-85. -/
theorem test_ldStVx : look (regs [(0, 0x02)]) 0xF018 (fun s => (s.st, s.dt, soundActive s)) = some (2, 0, true) := by decide
/-- SV-5, DV-61: a sprite across the right edge. -/
theorem test_drw_wraps : look ((bytesAt 0x300 [0xC0] (regs [(0, 63)])).setI 0x300) 0xD011
    (fun s => (s.fb.cell 0 63, s.fb.cell 0 0, s.fb.cell 0 1, s.reg 15)) = some (true, true, false, 0) := by decide
/-- DV-66: a collision. -/
theorem test_drw_collides : look (((bytesAt 0x300 [0xC0] State.reset).setI 0x300).setFb (State.reset.fb.toggle 0 0)) 0xD011
    (fun s => (s.fb.cell 0 0, s.fb.cell 0 1, s.reg 15)) = some (false, true, 1) := by decide

/-! ### The cycle and the host's operations -/

/-- DV-96. -/
theorem test_fetch_outside : fault? (step (State.reset.setPc 0xFFF)) = some (.addrFault .fetch 0x1000) ∧
    (next? (step (wrapping (bytesAt 0xFFF [0x12] (State.reset.setPc 0xFFF))))).map (fun s => s.pc) = some 0x200 := by decide
/-- SV-14, DV-89. -/
theorem test_tick : (next? (step ((State.reset.setDt 5).setSchedule [.tickTimers]))).map (fun s => (s.dt, s.st)) = some (4, 0) := by
  decide
/-- DV-94. -/
theorem test_set_key : (next? (step (State.reset.setSchedule [.setKey 15 true]))).map (fun s => (s.key[15], s.key[0])) =
    some (true, false) := by decide
/-- DV-93. -/
theorem test_load_program :
    (next? (step ((bytesAt 0x202 [0x77] (State.reset.setPc 0x300)).setSchedule [.loadProgram [0xAA, 0xBB]]))).map
      (fun s => (s.byteAt 0x200, s.byteAt 0x201, s.byteAt 0x202, s.pc)) = some (0xAA, 0xBB, 0x77, 0x300) := by decide
/-- DV-90 on a machine with registers and memory changed. -/
theorem test_reset_operation :
    (next? (step ((bytesAt 0x50 [1, 2] ((regs [(3, 9)]).setPc 0x300)).setSchedule [.initializeMachine]))).map
      (fun s => (s.reg 3, s.pc, s.byteAt 0x50, s.mem)) = some (0, 0x200, 0xF0, []) := by decide
/-- DV-01 with the cycle asked for: the cycle runs, and the tick behind it keeps waiting. -/
theorem test_run_cycle_operation :
    (next? (step ((bytesAt 0x200 [0x60, 0x2A] State.reset).setSchedule [.runCycle, .tickTimers]))).map
      (fun s => (s.reg 0, s.pc, s.schedule)) = some (0x2A, 0x202, [.tickTimers]) := by decide
/-- SV-14 under the schedule of ticks for ever: both timers at 0 after two ticks, and after three. -/
theorem test_ticks_for_ever :
    ∀ n ∈ [2, 3], (next? ((Schedule.infinite (fun _ => .tickTimers)).stateAfter ((State.reset.setDt 1).setSt 2) n)).map
      (fun s => (s.dt, s.st)) = some (0, 0) := by decide
/-- R130 after DV-96: a tick after the fault leaves the run at the fault, and the initialization after it gives `PC` = 0x200. -/
theorem test_initialization_after_a_fault :
    let sched := Schedule.finite [.runCycle, .tickTimers, .initializeMachine]
    let s := (regs [(3, 9)]).setPc 0xFFF
    fault? (sched.stateAfter s 1) = some (.addrFault .fetch 0x1000) ∧ fault? (sched.stateAfter s 2) = some (.addrFault .fetch 0x1000) ∧
    (next? (sched.stateAfter s 3)).map (fun t => (t.pc, t.reg 3)) = some (0x200, 0) := by decide
/-- The pseudocode of R117 by hand on `FB[0][0] = 1` and sprite 0x80: the first draw meets a 1, so VF = 1 and the cell is off; the second
meets a 0, so VF = 0 and the cell is on again (log 14). -/
theorem test_second_draw_over_set_cells :
    ((after (((bytesAt 0x300 [0x80] State.reset).setI 0x300).setFb (State.reset.fb.toggle 0 0)) 0xD011).bind
      (fun s => look s 0xD011 (fun t => (s.fb.cell 0 0, s.reg 15, t.fb.cell 0 0, t.reg 15)))) =
      some (false, 1, true, 0) := by decide
/-- SV-12, DV-95: row 1, column 0 is element 64. -/
theorem test_view : (framebufferCells (State.reset.setFb (State.reset.fb.toggle 1 0)))[64]? = some true := by decide

/-! ### Witnesses: for every statement with hypotheses, states and operands that meet them, at the ends of each range -/

/-- The word `w` at 0x200, `PC` there. -/
def running (w : Nat) (s : State) : State := s.withFetchWord 16 w

theorem witness_DecodeAfterEncode :
    WellFormed (.drw 15 15 15) ∧ WellFormed (.sys 0xFFF) ∧ WellFormed (.unrecognized 0xFFFF) := by decide

/-- 0x00E0 matches three rows, and CLS has the smallest priority. -/
theorem witness_DecodeSelectsTableRow :
    (opcodeTable.filter (fun r => r.hits 0x00E0)).map (fun r => (r.name, r.priority)) =
      [("SYS", 2), ("CLS", 1), ("UNRECOGNIZED", 9)] := by decide

/-- Both ends of the range, and both sides of the equivalence. -/
theorem witness_UnmatchedWordsAreExactlyThoseListed :
    (0 < 65536 ∧ UnmatchedWord 0) ∧ (65535 < 65536 ∧ UnmatchedWord 65535) ∧ ¬ UnmatchedWord 0x00E0 ∧ ¬ UnmatchedWord 0x8000 := by
  refine ⟨⟨by decide, ?_⟩, ⟨by decide, ?_⟩, ?_, ?_⟩ <;> unfold UnmatchedWord <;> decide

/-- A cycle because no operation waits, and a cycle asked for with another operation behind it. -/
theorem witness_CycleIsNext :
    CycleIsNext State.reset [] ∧ CycleIsNext (State.reset.setSchedule [.runCycle, .tickTimers]) [.tickTimers] :=
  ⟨.inl ⟨rfl, rfl⟩, .inr rfl⟩

theorem witness_StepRunsDecodedInstruction :
    ∀ ops ∈ [[], [.runCycle, .tickTimers]], let s := (running 0x602A State.reset).setSchedule ops
      CycleIsNext s ops.tail ∧ InRange s s.pc.toNat 2 ∧
      decodeBytes [s.byteAt s.pc.toNat, s.byteAt (s.pc.toNat + 1)] = .ok (.ldImm 0 0x2A, []) ∧ WordAtPc s 0x602A := by
  unfold CycleIsNext WordAtPc InRange
  decide

/-- The last address where a fetch is in range, and a wrapping machine above it. -/
theorem witness_WordAtPc_at_the_edge :
    WordAtPc (running 0x6001 (State.reset.setPc 0xFFE)) 0x6001 ∧ (running 0x6001 (State.reset.setPc 0xFFE)).pc = 0xFFE ∧
    WordAtPc (running 0x6001 (wrapping (State.reset.setPc 0xFFFF))) 0x6001 := by
  unfold WordAtPc InRange
  decide

/-- The first `PC` that faults, the first above memory, and the largest, for both ways a cycle comes next. -/
theorem witness_FetchOutsideMemoryFaults :
    ∀ a ∈ [0xFFF, 0x1000, 0xFFFF], ∀ ops ∈ [[], [.runCycle]], let s := (State.reset.setPc (BitVec.ofNat 16 a)).setSchedule ops
      CycleIsNext s [] ∧ s.config.oob = .fault ∧ s.pc.toNat > 0xFFE := by
  unfold CycleIsNext
  decide

theorem witness_PlacedWordRunsNext : StateInv State.reset ∧ InRange State.reset State.reset.pc.toNat 2 ∧ 65535 < 65536 := by
  unfold StateInv InRange
  decide

/-- One unmatched word of each of the four families of R54 (witness_CycleIsNext has the other premise). -/
theorem witness_IgnoredWordsOnlyAdvance :
    (UnmatchedWord 0x0000 ∧ WordAtPc (running 0x0000 State.reset) 0x0000) ∧
    (UnmatchedWord 0x800F ∧ WordAtPc (running 0x800F State.reset) 0x800F) ∧
    (UnmatchedWord 0xE0FF ∧ WordAtPc (running 0xE0FF State.reset) 0xE0FF) ∧
    (UnmatchedWord 0xF175 ∧ WordAtPc (running 0xF175 State.reset) 0xF175) := by
  unfold WordAtPc InRange
  refine ⟨⟨?_, by decide⟩, ⟨?_, by decide⟩, ⟨?_, by decide⟩, ?_, by decide⟩ <;> unfold UnmatchedWord <;> decide

/-- An empty stack, one entry, a full stack. -/
theorem witness_ReturnPopsOrIsDropped :
    State.reset.sp.val = 0 ∧ (State.reset.setSp 1).sp.val = (0 : Fin 16).val + 1 ∧
    (State.reset.setSp 16).sp.val = (15 : Fin 16).val + 1 := by decide

/-- A full stack, an empty one, one free slot. -/
theorem witness_CallPushesOrIsDropped :
    (State.reset.setSp 16).sp.val = 16 ∧ State.reset.sp.val = (0 : Fin 16).val ∧
    (State.reset.setSp 15).sp.val = (15 : Fin 16).val := by decide

theorem witness_ReturnUndoesCall : State.reset.sp.val < 16 ∧ (State.reset.setSp 15).sp.val < 16 := by decide

/-- The key named by the low nibble of 0x1A, and the two end keys. -/
theorem witness_SkipsOnKeys :
    (10 : Fin 16).val = ((regs [(0, 0x1A)]).reg 0).toNat % 16 ∧ (0 : Fin 16).val = ((regs [(0, 0)]).reg 0).toNat % 16 ∧
    (15 : Fin 16).val = ((regs [(0, 0xFF)]).reg 0).toNat % 16 := by decide

/-- Every case of x and y against VF, for the clauses of AddWithCarry, SubtractWithNotBorrow, ReverseSubtractWithNotBorrow,
ShiftRightCapturesLowBit and ShiftLeftCapturesHighBit. -/
theorem witness_alias_cases :
    ((1 : Reg) ≠ vf ∧ (2 : Reg) ≠ vf) ∧ ((1 : Reg) ≠ vf ∧ (15 : Reg) = vf) ∧ ((15 : Reg) = vf ∧ (1 : Reg) ≠ vf) ∧
    ((15 : Reg) = vf ∧ (15 : Reg) = vf) := by decide

theorem witness_RandomDrawIsMasked :
    State.reset.config.cxkk = .rnd ∧ ({ defaultConfig with cxkk := .ignore } : Config).cxkk = .ignore := by decide

/-- The last `I` in range for each access, and a wrapping machine: for BcdStoreWritesDigits, RegisterDumpStoresPrefix and
RegisterLoadReadsPrefix. -/
theorem witness_accesses_in_range :
    (InRange (State.reset.setI 0xFFD) 0xFFD 3 ∧ StateInv (State.reset.setI 0xFFD)) ∧
    (InRange (State.reset.setI 0xFF0) 0xFF0 (15 + 1) ∧ StateInv (State.reset.setI 0xFF0)) ∧
    (InRange (State.reset.setI 0xFFF) 0xFFF (0 + 1) ∧ StateInv (State.reset.setI 0xFFF)) ∧
    (InRange (wrapping (State.reset.setI 0xFFFF)) 0xFFFF 16 ∧ StateInv (wrapping (State.reset.setI 0xFFFF))) := by
  unfold InRange StateInv
  decide

/-- A dump at 0x300 for LoadAfterDumpRestores, and one over the next instruction for StoredBytesAreFetchedNext. -/
theorem witness_dumps_that_answer_next :
    (StateInv (State.reset.setI 0x300) ∧ ∃ t, exec (.ldMemVx 15) (State.reset.setI 0x300) = .next t) ∧
    (let s := ((State.reset.setI 0x208).setPc 0x208).setSchedule [.runCycle]
     StateInv s ∧ CycleIsNext s [] ∧ s.i = s.pc ∧ 1 ≤ (1 : Reg).val ∧ ∃ t, exec (.ldMemVx 1) s = .next t) := by
  exact ⟨⟨by unfold StateInv; decide, _, rfl⟩, by unfold StateInv; decide, .inr rfl, rfl, by decide, _, rfl⟩

/-- The last key alone, the first key with another, and no key. -/
theorem witness_WaitForKeyTakesLowestOrRetries :
    ((State.reset.setKey 15 true).key[15] = true ∧ ∀ j : Fin 16, j.val < 15 → (State.reset.setKey 15 true).key[j.val] = false) ∧
    ((State.reset.setKey 0 true).key[0] = true ∧ ∀ j : Fin 16, j.val < 0 → (State.reset.setKey 0 true).key[j.val] = false) ∧
    (∀ j : Fin 16, State.reset.key[j.val] = false) := by decide

/-- A sprite of one byte 0xC0 anchored at the right edge of the bottom row. -/
def spriteState : State := (bytesAt 0x300 [0xC0] (regs [(0, 63), (1, 31)])).setI 0x300

/-- In range with and without rows; a covered cell on each side of the edge, a cell not covered; with and without a collision. -/
theorem witness_DrawXorsSpriteAndReportsCollision :
    InRange spriteState spriteState.i.toNat 1 ∧ InRange (State.reset.setI 0x1000) 0x1000 0 ∧
    SpriteCovers spriteState 0 1 1 31 63 ∧ SpriteCovers spriteState 0 1 1 31 0 ∧ ¬ SpriteCovers spriteState 0 1 1 31 1 ∧
    ¬ SpriteCovers spriteState 0 1 1 0 63 ∧ spriteState.fb.cell 31 63 = false ∧
    (spriteState.setFb (State.reset.fb.toggle 31 63)).fb.cell 31 63 = true := by
  unfold InRange SpriteCovers
  decide

/-- A first draw that answers next and leaves the anchor, for SecondDrawRestoresScreen, and a screen cleared before a draw in range,
for DrawOnClearScreenSetsExactlyTheSprite. -/
theorem witness_draws_that_answer_next :
    (∃ t, exec (.drw 0 1 1) spriteState = .next t ∧ (t.reg 0).toNat % 64 = (spriteState.reg 0).toNat % 64 ∧
      (t.reg 1).toNat % 32 = (spriteState.reg 1).toNat % 32) ∧
    (InRange spriteState spriteState.i.toNat (1 : Fin 16).val ∧ ∃ t, exec .cls spriteState = .next t) := by
  exact ⟨⟨_, rfl, by decide, by decide⟩, by unfold InRange; decide, _, rfl⟩

/-- The two edges of the range, for each instruction that accesses memory, and an instruction that accesses none. -/
theorem witness_InstructionFaultsExactlyOutOfRange :
    (dataAccess (.ldB 0) (State.reset.setI 0xFFE) = some (.dataWrite, 0xFFE, 3) ∧ ¬ InRange (State.reset.setI 0xFFE) 0xFFE 3) ∧
    (dataAccess (.ldMemVx 15) (State.reset.setI 0xFF1) = some (.dataWrite, 0xFF1, 16) ∧ ¬ InRange (State.reset.setI 0xFF1) 0xFF1 16) ∧
    (dataAccess (.ldVxMem 0) (State.reset.setI 0xFFFF) = some (.dataRead, 0xFFFF, 1) ∧ ¬ InRange (State.reset.setI 0xFFFF) 0xFFFF 1) ∧
    (dataAccess (.drw 0 0 2) (State.reset.setI 0xFFF) = some (.dataRead, 0xFFF, 2) ∧ ¬ InRange (State.reset.setI 0xFFF) 0xFFF 2) ∧
    (dataAccess (.ldB 0) (State.reset.setI 0xFFD) = some (.dataWrite, 0xFFD, 3) ∧ InRange (State.reset.setI 0xFFD) 0xFFD 3) ∧
    dataAccess .cls State.reset = none := by
  unfold InRange
  decide

theorem witness_WrappingMachineAlwaysSteps :
    (wrapping (State.reset.setPc 0xFFFF)).config.oob = .wrap12 ∧ CycleIsNext (wrapping (State.reset.setPc 0xFFFF)) [] ∧
    CycleIsNext ((wrapping (State.reset.setPc 0xFFFF)).setSchedule [.runCycle, .runCycle]) [.runCycle] :=
  ⟨rfl, .inl ⟨rfl, rfl⟩, .inr rfl⟩

/-- For KeysAndTimersHaveTheirOwnWriters, MemoryAndScreenHaveTheirOwnWriters and IndexRegisterHasThreeWriters: for each part they
name, an instruction that answers next and changes it. -/
theorem witness_writers_change_their_part :
    (∃ t, exec (.ldDtVx 0) (regs [(0, 1)]) = .next t ∧ t.dt ≠ (regs [(0, 1)]).dt) ∧
    (∃ t, exec (.ldStVx 0) (regs [(0, 1)]) = .next t ∧ t.st ≠ (regs [(0, 1)]).st) ∧
    (∃ t, exec (.rnd 0 0) State.reset = .next t ∧ t.draws ≠ State.reset.draws) ∧
    (∃ t, exec (.ldMemVx 0) ((regs [(0, 1)]).setI 0x300) = .next t ∧ t.mem ≠ ((regs [(0, 1)]).setI 0x300).mem) ∧
    (∃ t, exec (.ldB 0) ((regs [(0, 1)]).setI 0x300) = .next t ∧ t.mem ≠ ((regs [(0, 1)]).setI 0x300).mem) ∧
    (∃ t, exec (.ldI 5) State.reset = .next t ∧ t.i ≠ State.reset.i) := by
  refine ⟨⟨_, rfl, ?_⟩, ⟨_, rfl, ?_⟩, ⟨_, rfl, ?_⟩, ⟨_, rfl, ?_⟩, ⟨_, rfl, ?_⟩, ⟨_, rfl, ?_⟩⟩ <;> decide

/-- The same for the screen, for StackIsWrittenByCallOnly and for RegistersChangeOnlyAsDestinationOrFlag. -/
theorem witness_writers_change_screen_stack_registers :
    (∃ t, exec .cls (State.reset.setFb (State.reset.fb.toggle 0 0)) = .next t ∧
      t.fb ≠ (State.reset.setFb (State.reset.fb.toggle 0 0)).fb) ∧
    (∃ t, exec (.drw 0 1 1) spriteState = .next t ∧ t.fb ≠ spriteState.fb) ∧
    (∃ t, exec (.call 0) State.reset = .next t ∧ t.sp ≠ State.reset.sp ∧ t.stack[0] ≠ State.reset.stack[0]) ∧
    (∃ t, exec .ret (State.reset.setSp 16) = .next t ∧ t.sp ≠ (State.reset.setSp 16).sp) ∧
    (∃ t, exec (.ldImm 3 1) State.reset = .next t ∧ t.reg 3 ≠ State.reset.reg 3) ∧
    (∃ t, exec (.subn 3 4) State.reset = .next t ∧ t.reg vf ≠ State.reset.reg vf) := by
  refine ⟨⟨_, rfl, ?_⟩, ⟨_, rfl, ?_⟩, ⟨_, rfl, ?_⟩, ⟨_, rfl, ?_⟩, ⟨_, rfl, ?_⟩, ⟨_, rfl, ?_⟩⟩ <;> decide

/-- A word of the instruction `i` that runs on from `s`: every premise of NextPcIsOneOfTheListed. -/
def Runs (i : Instr) (w : Nat) (s : State) : Prop :=
  decode (BitVec.ofNat 16 w) = i ∧ CycleIsNext (running w s) [] ∧ WordAtPc (running w s) w ∧ ∃ t, step (running w s) = .next t

/-- A taken skip of each kind, a wait with no key down, and a transfer of each kind. -/
theorem witness_NextPcIsOneOfTheListed_listed :
    (SkipTaken (.seImm 0 0) (running 0x3000 State.reset) ∧ Runs (.seImm 0 0) 0x3000 State.reset) ∧
    (SkipTaken (.sneReg 0 1) (running 0x9010 (regs [(0, 1)])) ∧ Runs (.sneReg 0 1) 0x9010 (regs [(0, 1)])) ∧
    (SkipTaken (.skp 0) (running 0xE09E ((regs [(0, 0x1F)]).setKey 15 true)) ∧
      Runs (.skp 0) 0xE09E ((regs [(0, 0x1F)]).setKey 15 true)) ∧
    (WaitsForKey (.ldVxK 0) (running 0xF00A State.reset) ∧ Runs (.ldVxK 0) 0xF00A State.reset) ∧
    (TransfersTo (.jp 0xFFF) (running 0x1FFF State.reset) 0xFFF ∧ Runs (.jp 0xFFF) 0x1FFF State.reset) ∧
    (TransfersTo (.call 0x300) (running 0x2300 (State.reset.setSp 15)) 0x300 ∧ Runs (.call 0x300) 0x2300 (State.reset.setSp 15)) ∧
    (TransfersTo (.jpV0 0xFFF) (running 0xBFFF (regs [(0, 0xFF)])) 0x10FE ∧ Runs (.jpV0 0xFFF) 0xBFFF (regs [(0, 0xFF)])) ∧
    (TransfersTo .ret (running 0x00EE (State.reset.setSp 16)) 0 ∧ Runs .ret 0x00EE (State.reset.setSp 16)) := by
  unfold Runs CycleIsNext WordAtPc InRange
  refine ⟨⟨.inl ⟨0, 0, .inl ⟨rfl, by decide⟩⟩, by decide, by decide, by decide, _, rfl⟩,
    ⟨.inr (.inl ⟨0, 1, .inr ⟨rfl, by decide⟩⟩), by decide, by decide, by decide, _, rfl⟩,
    ⟨.inr (.inr ⟨0, 15, by decide, .inl ⟨rfl, by decide⟩⟩), by decide, by decide, by decide, _, rfl⟩,
    ⟨⟨⟨0, rfl⟩, by decide⟩, by decide, by decide, by decide, _, rfl⟩,
    ⟨.inl ⟨0xFFF, rfl, rfl⟩, by decide, by decide, by decide, _, rfl⟩,
    ⟨.inr (.inl ⟨0x300, rfl, by decide, rfl⟩), by decide, by decide, by decide, _, rfl⟩,
    ⟨.inr (.inr (.inl ⟨0xFFF, rfl, by decide⟩)), by decide, by decide, by decide, _, rfl⟩,
    ⟨.inr (.inr (.inr ⟨15, rfl, rfl, rfl⟩)), by decide, by decide, by decide, _, rfl⟩⟩

/-- Straight on: an instruction of no listed kind, a skip that is not taken, a call with a full stack, a return from an empty one. -/
theorem witness_NextPcIsOneOfTheListed_straight_on :
    ∀ p ∈ [(Instr.ldImm 0 0x2A, 0x602A, State.reset), (.seImm 0 1, 0x3001, State.reset), (.call 0x300, 0x2300, State.reset.setSp 16),
        (.ret, 0x00EE, State.reset)],
      ¬ SkipTaken p.1 (running p.2.1 p.2.2) ∧ ¬ WaitsForKey p.1 (running p.2.1 p.2.2) ∧
      (∀ target, ¬ TransfersTo p.1 (running p.2.1 p.2.2) target) ∧ Runs p.1 p.2.1 p.2.2 := by
  have hsp : (running 0x2300 (State.reset.setSp 16)).sp.val = 16 := by decide
  have hse : ¬ 1#8 = (running 0x3001 State.reset).reg 0 := by decide
  have hr : (running 0x00EE State.reset).sp.val = 0 := by decide
  unfold Runs CycleIsNext WordAtPc InRange
  simp only [List.forall_mem_cons]
  refine ⟨⟨?_, ?_, ?_, by decide, by decide, by decide, _, rfl⟩, ⟨?_, ?_, ?_, by decide, by decide, by decide, _, rfl⟩,
    ⟨?_, ?_, ?_, by decide, by decide, by decide, _, rfl⟩, ⟨?_, ?_, ?_, by decide, by decide, by decide, _, rfl⟩, by simp⟩
  all_goals simp [SkipTaken, WaitsForKey, TransfersTo, hsp, hse, hr]

/-- At the entry point, at address 0 and at the last address where a fetch is in range, for both ways a cycle comes next. -/
theorem witness_SelfJumpIsAFixedPoint :
    ∀ a ∈ [0x200, 0x000, 0xFFE], ∀ ops ∈ [[], [.runCycle]],
      let s := (running (0x1000 + a) (State.reset.setPc (BitVec.ofNat 16 a))).setSchedule ops
      s.pc.toNat = a ∧ s.pc.toNat < 4096 ∧ CycleIsNext s [] ∧ WordAtPc s (0x1000 + s.pc.toNat) := by
  unfold CycleIsNext WordAtPc InRange
  decide

theorem witness_EveryStepKeepsTheInvariant :
    StateInv (running 0xF055 ((regs [(0, 1)]).setI 0x300)) ∧ ∃ t, step (running 0xF055 ((regs [(0, 1)]).setI 0x300)) = .next t :=
  ⟨by unfold StateInv; decide, _, rfl⟩

theorem witness_TickDecrementsNonzeroTimers : (State.reset.setSchedule [.tickTimers]).schedule = .tickTimers :: [] := rfl

/-- The first key, the last key, and the first index outside the contract. -/
theorem witness_SetKeyWritesOneFlag :
    ((State.reset.setSchedule [.setKey 0 true]).schedule = .setKey 0 true :: [] ∧ 0 = (0 : Fin 16).val) ∧
    ((State.reset.setSchedule [.setKey 15 true]).schedule = .setKey 15 true :: [] ∧ 15 = (15 : Fin 16).val) ∧
    ((State.reset.setSchedule [.setKey 16 true]).schedule = .setKey 16 true :: [] ∧ 16 ≥ 16) := by decide

/-- The longest payload that is copied, and the shortest that is rejected. -/
theorem witness_LoadProgramCopiesOrRejects :
    StateInv State.reset ∧ (List.replicate 3584 (0xAA : Byte)).length ≤ 3584 ∧ (List.replicate 3585 (0xAA : Byte)).length > 3584 ∧
    ∀ bytes, (State.reset.setSchedule [.loadProgram bytes]).schedule = .loadProgram bytes :: [] := by
  refine ⟨by unfold StateInv; decide, ?_, ?_, fun _ => rfl⟩
  · rw [List.length_replicate]
  · rw [List.length_replicate]
    decide

theorem witness_ResetOperationSetsEveryComponent :
    ((regs [(0, 9)]).setSchedule [.initializeMachine, .runCycle]).schedule = .initializeMachine :: [.runCycle] := rfl

theorem witness_FramebufferViewIsRowMajor : (State.reset.setSchedule [.framebufferView]).schedule = .framebufferView :: [] := rfl

/-- Two states that differ in a slot at `SP`, and agree below. -/
theorem witness_StaleStackSlotsAreUnobservable :
    let s := State.reset.setSp 1
    let s' := s.setSlot 1 0xABC
    s' = { s with stack := s'.stack } ∧ (∀ k : Fin 16, k.val < s.sp.val → s'.stack[k.val] = s.stack[k.val]) ∧ s ≠ s' := by decide

theorem witness_SoundTimerFlowsOnlyIntoItself :
    SameButSoundTimer State.reset (State.reset.setSt 7) ∧ State.reset ≠ State.reset.setSt 7 := ⟨rfl, by decide⟩

/-- A finite schedule with all its operations, and the first places of an infinite one. -/
theorem witness_StepsRunEverySchedule :
    (∀ k : Fin [Operation.setKey 7 true, .tickTimers].length, (Schedule.finite [.setKey 7 true, .tickTimers]).operation k.val =
      some [Operation.setKey 7 true, .tickTimers][k.val]) ∧
    (∀ k : Fin [Operation.tickTimers, .tickTimers].length, (Schedule.infinite (fun _ => .tickTimers)).operation k.val =
      some [Operation.tickTimers, .tickTimers][k.val]) := by decide

/-- A host that sets a key, runs a cycle, takes a view and ticks, over and over. -/
def roundRobin (n : Nat) : Operation :=
  match n % 4 with
  | 0 => .setKey 15 true
  | 1 => .runCycle
  | 2 => .framebufferView
  | _ => .tickTimers

/-- That schedule, and ticks for ever without a key, on a machine that waits in a jump to itself with a timer running. -/
theorem witness_TimersStopWhenTicksKeepArriving :
    (∀ n, RunningOperation (roundRobin n)) ∧ (Schedule.infinite roundRobin).TicksKeepArriving ∧
    (∀ n, RunningOperation ((fun _ => .tickTimers : Nat → Operation) n)) ∧
    (Schedule.infinite (fun _ => .tickTimers)).TicksKeepArriving ∧
    (∀ j k pressed, (fun _ => .tickTimers : Nat → Operation) j ≠ .setKey k pressed) ∧
    (let s := (running 0x1200 State.reset).setDt 255
     s.pc.toNat < 4096 ∧ WordAtPc s (0x1000 + s.pc.toNat) ∧ s.dt = 255) := by
  refine ⟨fun n => ?_, fun n => ⟨4 * n + 3, by omega, ?_⟩, fun _ => .inr (.inl rfl), fun n => ⟨n, Nat.le_refl n, rfl⟩, ?_, ?_⟩
  · unfold roundRobin RunningOperation
    split <;> simp
  · simp only [Schedule.operation, roundRobin, show (4 * n + 3) % 4 = 3 by omega]
  · simp
  · unfold WordAtPc InRange
    decide

/-- A run at a fault with the initialization next, one with a tick next, and a run at a refusal with the initialization next. -/
theorem witness_OnlyInitializationLeavesAStop :
    (Schedule.finite [.runCycle, .initializeMachine]).operation 1 = some .initializeMachine ∧
    (∀ t, (Schedule.finite [.runCycle, .initializeMachine]).stateAfter (State.reset.setPc 0xFFFF) 1 ≠ .next t) ∧
    (Schedule.finite [.runCycle, .tickTimers]).operation 1 = some .tickTimers ∧
    (∀ t, (Schedule.finite [.runCycle, .tickTimers]).stateAfter (State.reset.setPc 0xFFFF) 1 ≠ .next t) ∧
    (Schedule.finite [.setKey 16 true, .initializeMachine]).operation 1 = some .initializeMachine ∧
    (∀ t, (Schedule.finite [.setKey 16 true, .initializeMachine]).stateAfter State.reset 1 ≠ .next t) := by
  have hf (ops : List Operation) : (Schedule.finite (.runCycle :: ops)).stateAfter (State.reset.setPc 0xFFFF) 1 =
      .fault (.addrFault .fetch 0xFFFF) := rfl
  have hr : (Schedule.finite [.setKey 16 true, .initializeMachine]).stateAfter State.reset 1 =
      .refused (.keyIndexOutsideContract 16) := rfl
  refine ⟨rfl, fun t => ?_, rfl, fun t => ?_, rfl, fun t => ?_⟩
  · rw [hf]; simp
  · rw [hf]; simp
  · rw [hr]; simp

end Sys2Proof.Tests
end

section
/-!
PROOFS of the family 00_scope: the steps from State run every schedule (R5, R6, R7; log 3).
-/
namespace Sys2Proof.Proofs.Scope
open Sys2Proof Sys2Proof.Machine

/-! ### The operations still to perform, over a run -/

@[simp] theorem withOperations_schedule (ops : List Operation) (r : Run) : (withOperations ops r).state.schedule = ops := rfl

theorem withOperations_eq_self {ops : List Operation} {r : Run} (h : r.state.schedule = ops) : withOperations ops r = r := by
  subst h
  rfl

/-- The operations still to perform stay as they are over one operation of a run, at a stop as well. -/
theorem performOn_schedule (op : Operation) (r : Run) : (performOn op r).state.schedule = r.state.schedule := by
  have h := performOn_withOperations op r.state.schedule r
  rw [withOperations_eq_self rfl] at h
  rw [h, withOperations_schedule]

theorem runAfter_schedule (sched : Schedule) (s : State) (n : Nat) : (sched.runAfter s n).state.schedule = s.schedule := by
  induction n with
  | zero => rfl
  | succ n ih =>
    cases hop : sched.operation n with
    | none => simpa [Schedule.runAfter, hop] using ih
    | some op => rw [runAfter_succ s hop, performOn_schedule, ih]

/-! ### Steps of a run -/

/-- The last step of a run comes after the others. -/
theorem stepRunTimes_succ (n : Nat) (r : Run) : stepRunTimes (n + 1) r = stepRun (stepRunTimes n r) := by
  induction n generalizing r with
  | zero => rfl
  | succ n ih => exact ih (stepRun r)

/-- The simulation: after `n` steps the run is that of the schedule's first `n` operations, with the rest of the list still waiting. -/
theorem stepRunTimes_withOperations {sched : Schedule} {ops : List Operation} (s : State) (waiting : List Operation)
    (hops : ∀ k : Fin ops.length, sched.operation k.val = some ops[k.val]) {n : Nat} (hn : n ≤ ops.length) :
    stepRunTimes n (withOperations (ops ++ waiting) (runningAt s)) =
      withOperations (ops.drop n ++ waiting) (sched.runAfter s n) := by
  induction n with
  | zero => rfl
  | succ n ih =>
    have hlt : n < ops.length := hn
    have hhead : ops.drop n ++ waiting = ops[n] :: (ops.drop (n + 1) ++ waiting) := by
      rw [List.drop_eq_getElem_cons hlt, List.cons_append]
    rw [stepRunTimes_succ, ih hlt.le, hhead, stepRun_withOperations_cons, runAfter_succ s (hops ⟨n, hlt⟩)]

/-- Settles O57: the simulation at the end of the list, where what waited behind the list is what waited at the start. -/
theorem stepsRunEverySchedule : Obligations.StepsRunEverySchedule := by
  intro sched ops s hops
  calc stepRunTimes ops.length (runningAt { s with schedule := ops ++ s.schedule })
      = withOperations (ops.drop ops.length ++ s.schedule) (sched.runAfter s ops.length) :=
        stepRunTimes_withOperations s s.schedule hops le_rfl
    _ = withOperations s.schedule (sched.runAfter s ops.length) := by rw [List.drop_length, List.nil_append]
    _ = sched.runAfter s ops.length := withOperations_eq_self (runAfter_schedule sched s ops.length)

end Sys2Proof.Proofs.Scope
end

section
/-!
PROOFS of the family 41_control_flow: CALL (R72) and the skips on registers (R73 to R76), by the skip rule said once (R77).
-/
namespace Sys2Proof.Proofs.ControlFlow
open Sys2Proof Sys2Proof.Machine

theorem zext12_toNat (nnn : BitVec 12) : (zext12 nnn).toNat = nnn.toNat :=
  BitVec.toNat_setWidth_of_le (by decide)

theorem sameExcept_setPc (s : State) (w : Word) : SameExcept [] [.pc] [] s (s.setPc w) := by
  constructor <;> simp

/-! ### CALL (R72) -/

/-- The push of `pushAndJump_of_room`, with the free slot that SP names as the number `k` of a slot. -/
theorem pushAndJump_at_slot {s : State} {k : Fin 16} (target : Word) (h : s.sp.val = k.val) :
    pushAndJump target s = ((s.setSlot k s.pc).setSp k.succ).setPc target := by
  obtain ⟨slot, hlt⟩ := k
  obtain rfl : s.sp.val = slot := h
  exact pushAndJump_of_room target hlt

theorem sameExcept_push (s : State) (k : Fin 16) (sp : Fin 17) (w target : Word) :
    SameExcept [] [.pc, .sp, .stack] [] s (((s.setSlot k w).setSp sp).setPc target) := by
  constructor <;> simp

/-- Settles O12: the two branches of the push, a full stack and a free slot `k`. -/
theorem callPushesOrIsDropped : Obligations.CallPushesOrIsDropped := by
  intro nnn s
  refine ⟨pushAndJump (zext12 nnn) s, rfl, fun hfull => pushAndJump_of_full _ hfull, fun k hk => ?_⟩
  rw [pushAndJump_at_slot _ hk]
  have hother : ∀ j : Fin 16, j ≠ k → (s.setSlot k s.pc).stack[j.val] = s.stack[j.val] := fun j hj => by
    rw [setSlot_stack, Vector.getElem_set_ne _ _ fun e => hj (Fin.ext e.symm)]
  exact ⟨rfl, by simp, zext12_toNat nnn, hother, sameExcept_push s k k.succ s.pc (zext12 nnn)⟩

/-! ### Skips (R73 to R77) -/

theorem skipIf_pc_toNat (cond : Bool) (s : State) :
    (skipIf cond s).pc.toNat = (s.pc.toNat + if cond then 2 else 0) % 65536 := by
  rw [skipIf_pc]
  cases cond with
  | true => exact BitVec.toNat_add s.pc 2
  | false => exact (Nat.mod_eq_of_lt s.pc.isLt).symm

theorem sameExcept_skipIf (cond : Bool) (s : State) : SameExcept [] [.pc] [] s (skipIf cond s) := by
  rw [skipIf_fields]
  exact sameExcept_setPc s _

/-- The skip rule of R77 for an instruction that skips on `cond`; `extra` is what it adds to PC, as its own rule writes it. -/
theorem exec_of_skipIf {i : Instr} {cond : Bool} {s : State} {extra : Nat} (hexec : exec i s = .next (skipIf cond s))
    (hextra : (if cond then 2 else 0) = extra) :
    ∃ t, exec i s = .next t ∧ t.pc.toNat = (s.pc.toNat + extra) % 65536 ∧ SameExcept [] [.pc] [] s t :=
  ⟨skipIf cond s, hexec, hextra ▸ skipIf_pc_toNat cond s, sameExcept_skipIf cond s⟩

/-- What a skip on equality adds, with the comparison of unsigned values (R77). -/
theorem extra_of_beq (a b : Byte) : (if a == b then 2 else 0) = if a.toNat = b.toNat then 2 else 0 := by
  simp [BitVec.toNat_inj]

theorem extra_of_bne (a b : Byte) : (if a != b then 2 else 0) = if a.toNat = b.toNat then 0 else 2 := by
  simp [BitVec.toNat_inj]

/-- Settles O14, by the skip rule for each comparison with the immediate. -/
theorem skipsAgainstImmediate : Obligations.SkipsAgainstImmediate := fun x kk s =>
  ⟨exec_of_skipIf rfl (extra_of_beq (s.reg x) kk), exec_of_skipIf rfl (extra_of_bne (s.reg x) kk)⟩

/-- Settles O15, by the skip rule for each comparison of the two registers. -/
theorem skipsBetweenRegisters : Obligations.SkipsBetweenRegisters := fun x y s =>
  ⟨exec_of_skipIf rfl (extra_of_beq (s.reg x) (s.reg y)), exec_of_skipIf rfl (extra_of_bne (s.reg x) (s.reg y))⟩

end Sys2Proof.Proofs.ControlFlow
end

section
/-!
PROOFS of the family 42_alu: the register instructions that write no flag (R82 to R87), by the frame of one register write.
-/
namespace Sys2Proof.Proofs.Alu
open Sys2Proof Sys2Proof.Machine

/-- The frame of a register write: VF is kept like every other register that is not the destination. -/
theorem sameExcept_setReg (s : State) (x : Reg) (b : Byte) : SameExcept [x] [] [] s (s.setReg x b) := by
  constructor
  case v => exact fun _ hr => setReg_reg_ne s b (List.ne_of_not_mem_cons hr)
  all_goals simp

/-- Settles O17: each instruction is one register write, and the 8-bit sum is the exact sum modulo 256. -/
theorem loadAndAddImmediate : Obligations.LoadAndAddImmediate := by
  intro x kk s
  refine ⟨⟨s.setReg x kk, rfl, ?load, sameExcept_setReg s x kk⟩,
    ⟨s.setReg x (s.reg x + kk), rfl, ?add, sameExcept_setReg s x _⟩⟩
  case load => exact setReg_reg_self s x kk
  case add => rw [setReg_reg_self, BitVec.toNat_add]

/-- Settles O18: each instruction is one register write, of a value whose bits the library's lemma on its operator gives. -/
theorem copyAndBitwiseLogic : Obligations.CopyAndBitwiseLogic := by
  intro x y s
  refine ⟨⟨s.setReg x (s.reg y), rfl, ?copy, sameExcept_setReg s x _⟩,
    ⟨s.setReg x (s.reg x ||| s.reg y), rfl, fun k => ?or, sameExcept_setReg s x _⟩,
    ⟨s.setReg x (s.reg x &&& s.reg y), rfl, fun k => ?and, sameExcept_setReg s x _⟩,
    ⟨s.setReg x (s.reg x ^^^ s.reg y), rfl, fun k => ?xor, sameExcept_setReg s x _⟩⟩
  case copy => exact setReg_reg_self s x _
  case or => rw [setReg_reg_self, BitVec.getLsbD_or]
  case and => rw [setReg_reg_self, BitVec.getLsbD_and]
  case xor => rw [setReg_reg_self, BitVec.getLsbD_xor]

end Sys2Proof.Proofs.Alu
end

section
/-!
PROOFS of the family 43_index_memory: the two loads of I (R96, R98), by the frame of a write to I.
-/
namespace Sys2Proof.Proofs.IndexMemory
open Sys2Proof Sys2Proof.Machine

theorem sameExcept_setI (s : State) (w : Word) : SameExcept [] [.i] [] s (s.setI w) := by
  constructor <;> simp

/-- The low nibble of a register is its value modulo 16 (R98, R106). -/
theorem lowNibble_val (b : Byte) : (lowNibble b).val = b.toNat % 16 :=
  BitVec.extractLsb'_toNat 0 4 b

/-- The address of a glyph: the font table ends far below 65536, so the 16-bit value is the exact one (R98). -/
theorem fontAddress_toNat (b : Byte) : (fontAddress b).toNat = 0x050 + b.toNat % 16 * 5 := by
  have hbound : 0x050 + b.toNat % 16 * 5 < 2 ^ 16 := by omega
  rw [fontAddress, lowNibble_val, BitVec.toNat_ofNat, Nat.mod_eq_of_lt hbound]

/-- Settles O25: each instruction is one write to I, of the zero-extended immediate or of the glyph's address. -/
theorem indexLoadAndFontAddress : Obligations.IndexLoadAndFontAddress := fun nnn x s =>
  ⟨⟨s.setI (zext12 nnn), rfl, ControlFlow.zext12_toNat nnn, sameExcept_setI s _⟩,
    ⟨s.setI (fontAddress (s.reg x)), rfl, fontAddress_toNat (s.reg x), sameExcept_setI s _⟩⟩

end Sys2Proof.Proofs.IndexMemory
end

section
/-!
PROOFS of the family 44_keypad_timers: the wait for a key (R109), the skips on a key (R106, R107) and the timer moves (R108, R110,
R111), by the frames of one write to a register, to PC or to a timer.
-/
namespace Sys2Proof.Proofs.KeypadTimers
open Sys2Proof Sys2Proof.Machine

/-! ### The wait for a key (R109) -/

/-- The scan of all the keys finds the lowest pressed one: of two lowest pressed keys neither lies below the other. -/
theorem firstPressed_of_lowest {s : State} {k : Fin 16} (hk : s.key[k.val] = true)
    (hlow : ∀ j : Fin 16, j.val < k.val → s.key[j.val] = false) : firstPressed s 16 = some k := by
  have hspec := firstPressed_spec s (le_refl 16)
  cases hscan : firstPressed s 16 with
  | none =>
    rw [hscan] at hspec
    exact absurd hk (ne_true_of_eq_false (hspec k k.isLt))
  | some m =>
    rw [hscan] at hspec
    obtain ⟨-, hm, hbelow⟩ := hspec
    have hkm : k.val ≤ m.val := Nat.le_of_not_lt fun hlt => ne_true_of_eq_false (hlow m hlt) hm
    have hmk : m.val ≤ k.val := Nat.le_of_not_lt fun hlt => ne_true_of_eq_false (hbelow k hlt) hk
    rw [Fin.ext (Nat.le_antisymm hmk hkm)]

theorem firstPressed_of_none_pressed {s : State} (hnone : ∀ j : Fin 16, s.key[j.val] = false) : firstPressed s 16 = none := by
  have hspec := firstPressed_spec s (le_refl 16)
  cases hscan : firstPressed s 16 with
  | none => rfl
  | some m =>
    rw [hscan] at hspec
    obtain ⟨-, hm, -⟩ := hspec
    exact absurd hm (ne_true_of_eq_false (hnone m))

theorem exec_ldVxK (x : Reg) (s : State) : exec (.ldVxK x) s = execLdVxK x s := rfl

theorem exec_ldVxK_of_lowest (x : Reg) {s : State} {k : Fin 16} (hk : s.key[k.val] = true)
    (hlow : ∀ j : Fin 16, j.val < k.val → s.key[j.val] = false) :
    exec (.ldVxK x) s = .next (s.setReg x (BitVec.ofNat 8 k.val)) := by
  rw [exec_ldVxK]
  unfold execLdVxK
  rw [firstPressed_of_lowest hk hlow]

theorem exec_ldVxK_of_none_pressed (x : Reg) {s : State} (hnone : ∀ j : Fin 16, s.key[j.val] = false) :
    exec (.ldVxK x) s = .next (s.setPc (s.pc - 2)) := by
  rw [exec_ldVxK]
  unfold execLdVxK
  rw [firstPressed_of_none_pressed hnone]

/-- A key index is far below 256, so the byte that is stored is the exact one. -/
theorem keyIndexByte_toNat (k : Fin 16) : (BitVec.ofNat 8 k.val).toNat = k.val :=
  Nat.mod_eq_of_lt (k.isLt.trans (by decide))

theorem setPc_advance_undone (s : State) : State.setPc { s with pc := s.pc + 2 } (s.pc + 2 - 2) = s := by
  rw [BitVec.add_sub_cancel]
  rfl

/-- Settles O33, by the two results of the scan; to undo the advance is to add 65534 modulo 65536. -/
theorem waitForKeyTakesLowestOrRetries : Obligations.WaitForKeyTakesLowestOrRetries := by
  refine ⟨fun x s k hk hlow => ?pressed, fun x s hnone => ⟨?retry, ?wholeCycle⟩⟩
  case pressed =>
    refine ⟨_, exec_ldVxK_of_lowest x hk hlow, ?_, Alu.sameExcept_setReg s x _⟩
    rw [setReg_reg_self, keyIndexByte_toNat]
  case retry =>
    refine ⟨_, exec_ldVxK_of_none_pressed x hnone, ?_, ControlFlow.sameExcept_setPc s _⟩
    rw [setPc_pc, BitVec.toNat_sub, Nat.add_comm]
    rfl
  case wholeCycle =>
    rw [exec_ldVxK_of_none_pressed x (s := { s with pc := s.pc + 2 }) hnone, setPc_advance_undone]

/-! ### Skips on a key (R106, R107) -/

/-- The key that SKP and SKNP test is the one whose index is the register modulo 16. -/
theorem keyOf_eq {s : State} {x : Reg} {k : Fin 16} (hk : k.val = (s.reg x).toNat % 16) : keyOf s x = s.key[k.val] := by
  obtain rfl : lowNibble (s.reg x) = k := Fin.ext ((IndexMemory.lowNibble_val (s.reg x)).trans hk.symm)
  rfl

/-- What a skip on a released key adds, written with the key pressed as the condition. -/
theorem extra_of_not (pressed : Bool) : (if !pressed then 2 else 0) = if pressed then 0 else 2 := by
  cases pressed <;> rfl

/-- Settles O16, by the skip rule for the named key and for its negation. -/
theorem skipsOnKeys : Obligations.SkipsOnKeys := by
  intro x s k hk
  rw [← keyOf_eq hk]
  exact ⟨ControlFlow.exec_of_skipIf rfl rfl, ControlFlow.exec_of_skipIf rfl (extra_of_not (keyOf s x))⟩

/-! ### Timer moves (R108, R110, R111) -/

theorem sameExcept_setDt (s : State) (b : Byte) : SameExcept [] [.dt] [] s (s.setDt b) := by
  constructor <;> simp

theorem sameExcept_setSt (s : State) (b : Byte) : SameExcept [] [.st] [] s (s.setSt b) := by
  constructor <;> simp

/-- Settles O32: each instruction is one write, of the byte as it stands, to the register or to the timer. -/
theorem timerMoves : Obligations.TimerMoves := fun x s =>
  ⟨⟨s.setReg x s.dt, rfl, setReg_reg_self s x s.dt, Alu.sameExcept_setReg s x s.dt⟩,
    ⟨s.setDt (s.reg x), rfl, setDt_dt s (s.reg x), sameExcept_setDt s (s.reg x)⟩,
    ⟨s.setSt (s.reg x), rfl, setSt_st s (s.reg x), sameExcept_setSt s (s.reg x)⟩⟩

end Sys2Proof.Proofs.KeypadTimers
end

section
/-!
PROOFS of the family 45_display: CLS (R116), by the frame of a write of the framebuffer.
-/
namespace Sys2Proof.Proofs.Display
open Sys2Proof Sys2Proof.Machine

/-- The frame of a framebuffer write: every register is kept, VF included. -/
theorem sameExcept_setFb (s : State) (fb : Framebuffer) : SameExcept [] [.fb] [] s (s.setFb fb) := by
  constructor <;> simp

/-- Settles O34: CLS is one write, of the framebuffer in which every cell is 0. -/
theorem clearScreenZeroesEveryCell : Obligations.ClearScreenZeroesEveryCell := fun s =>
  ⟨s.setFb clearScreen, rfl, clearScreen_cell, sameExcept_setFb s clearScreen⟩

end Sys2Proof.Proofs.Display
end

section
/-!
PROOFS of the family 60_exceptions: the tick of the timers (R134, R135) and the framebuffer view (R139).
-/
namespace Sys2Proof.Proofs.HostOperations
open Sys2Proof Sys2Proof.Machine

/-! ### The tick (R134, R135) -/

/-- A timer at 0 stays there, as the truncated subtraction of natural numbers does. -/
theorem tickDown_toNat (b : Byte) : (tickDown b).toNat = b.toNat - 1 := by
  unfold tickDown
  split
  · next hpos => exact BitVec.toNat_sub_of_le hpos
  · next hzero => omega

theorem soundActive_iff (s : State) : soundActive s = true ↔ 0 < s.st.toNat := by
  simp [soundActive, ← BitVec.toNat_inj, Nat.pos_iff_ne_zero]

theorem sameExcept_tick (s : State) (rest : List Operation) :
    SameExcept [] [.dt, .st, .schedule] [] s (tickTimers (s.setSchedule rest)) := by
  unfold tickTimers
  constructor <;> simp

/-- Settles O49: the tick lowers each timer, and sound is active when ST is still above 0. -/
theorem tickDecrementsNonzeroTimers : Obligations.TickDecrementsNonzeroTimers := by
  intro s rest hnext
  have hst : (tickTimers (s.setSchedule rest)).st.toNat = s.st.toNat - 1 := tickDown_toNat s.st
  refine ⟨tickTimers (s.setSchedule rest), step_eq_perform hnext, rfl, tickDown_toNat s.dt, hst, ?sound, sameExcept_tick s rest⟩
  case sound => rw [soundActive_iff, hst, Nat.sub_pos_iff_lt]

/-! ### The framebuffer view (R139) -/

/-- The view is the library's flattening of the rows. -/
theorem framebufferCells_eq_flatten (s : State) : framebufferCells s = s.fb.flatten.toList := by
  simp only [framebufferCells, Vector.flatten, List.flatMap_def, Vector.toList_mk, Array.toList_flatten, Array.toList_map,
    List.map_map]
  rfl

theorem framebufferCells_length (s : State) : (framebufferCells s).length = 2048 := by
  rw [framebufferCells_eq_flatten, Vector.length_toList]

theorem framebufferCells_getElem? (s : State) (r : Fin 32) (c : Fin 64) :
    (framebufferCells s)[r.val * 64 + c.val]? = some (s.fb.cell r c) := by
  have hlt : r.val * 64 + c.val < 32 * 64 := by omega
  have hrow : (r.val * 64 + c.val) / 64 = r.val := by omega
  have hcolumn : (r.val * 64 + c.val) % 64 = c.val := by omega
  rw [framebufferCells_eq_flatten, Vector.getElem?_toList, Vector.getElem?_flatten, dif_pos hlt]
  simp only [hrow, hcolumn, Framebuffer.cell]

/-- Settles O54: the cells of the flattened rows, and a step that performs the view and leaves the rest of the operations. -/
theorem framebufferViewIsRowMajor : Obligations.FramebufferViewIsRowMajor := fun s =>
  ⟨framebufferCells_length s, framebufferCells_getElem? s, fun _ hnext => step_eq_perform hnext⟩

end Sys2Proof.Proofs.HostOperations
end

section
/-!
PROOFS of the family 30_encoding: decoding and encoding undo each other (R46, R47, R51, R52), the unmatched words (R54), and the row of
the opcode table that the decoder selects (R53).
-/
namespace Sys2Proof.Proofs.Encoding
open Sys2Proof Sys2Proof.Machine Sys2Proof.Claims

/-! ### Decoding a word that was encoded -/

theorem decode_of_family0 {op : Word} (h : opFam op = 0x0) : decode op = decodeFamily0 op := by simp [decode, h]
theorem decode_of_family8 {op : Word} (h : opFam op = 0x8) : decode op = decodeFamily8 op := by simp [decode, h]
theorem decode_of_familyE {op : Word} (h : opFam op = 0xE) : decode op = decodeFamilyE op := by simp [decode, h]
theorem decode_of_familyF {op : Word} (h : opFam op = 0xF) : decode op = decodeFamilyF op := by simp [decode, h]

theorem sysSelectorFree_iff (nnn : BitVec 12) :
    sysSelectorFree nnn = true ↔ nnn.toNat % 256 ≠ 0xE0 ∧ nnn.toNat % 256 ≠ 0xEE := by
  simp [sysSelectorFree]

theorem isUnrecognizedWord_iff (op : Word) :
    isUnrecognizedWord op = true ↔
      (opFam op = 0x8 ∧ (opN op).val ∈ [0x8, 0x9, 0xA, 0xB, 0xC, 0xD, 0xF]) ∨
      (opFam op = 0xE ∧ (opKk op).toNat ∉ [0x9E, 0xA1]) ∨
      (opFam op = 0xF ∧ (opKk op).toNat ∉ [0x07, 0x0A, 0x15, 0x18, 0x1E, 0x29, 0x33, 0x55, 0x65]) := by
  rw [opFam_eq, opN_val, opKk_toNat]
  unfold isUnrecognizedWord
  simp only
  split <;> simp_all

theorem decode_unrecognized {op : Word} (h : isUnrecognizedWord op = true) : decode op = .unrecognized op := by
  rcases (isUnrecognizedWord_iff op).1 h with ⟨hfam, hn⟩ | ⟨hfam, hkk⟩ | ⟨hfam, hkk⟩
  · rw [decode_of_family8 hfam, decodeFamily8]
    split <;> simp_all
  · rw [decode_of_familyE hfam, decodeFamilyE]
    split <;> simp_all
  · rw [decode_of_familyF hfam, decodeFamilyF]
    split <;> simp_all

theorem decode_fmtNNN_zero {nnn : BitVec 12} (h : sysSelectorFree nnn = true) : decode (fmtNNN 0x0 nnn) = .sys nnn := by
  obtain ⟨hcls, hret⟩ := (sysSelectorFree_iff nnn).1 h
  rw [decode_of_family0 (opFam_fmtNNN 0x0 nnn)]
  unfold decodeFamily0
  split <;> simp_all

/-- Settles O2: the fields of the encoded word are the operands, and only the two catch-alls need their well-formedness. -/
theorem decodeAfterEncode : Obligations.DecodeAfterEncode := by
  intro i hi
  cases i with
  | sys nnn => exact decode_fmtNNN_zero hi
  | unrecognized op => exact decode_unrecognized hi
  | cls | ret => rfl
  | jp nnn | call nnn | ldI nnn | jpV0 nnn => simp [encode, decode]
  | seImm x kk | sneImm x kk | ldImm x kk | addImm x kk | rnd x kk => simp [encode, decode]
  | seReg x y | sneReg x y => simp [encode, decode]
  | drw x y n => simp [encode, decode]
  | ldReg x y | orReg x y | andReg x y | xorReg x y | addReg x y | sub x y | subn x y =>
    simp [encode, decode, decodeFamily8]
  | shr x | shl x => simp [encode, decode, decodeFamily8]
  | skp x | sknp x => simp [encode, decode, decodeFamilyE]
  | ldVxDt x | ldVxK x | ldDtVx x | ldStVx x | addI x | ldF x | ldB x | ldMemVx x | ldVxMem x =>
    simp [encode, decode, decodeFamilyF]

/-! ### Encoding a word that was decoded -/

theorem fmtNNN_of_opFam {op : Word} {f : BitVec 4} (h : opFam op = f.toNat) : fmtNNN f (opNnn op) = op := by
  apply BitVec.eq_of_toNat_eq
  rw [opFam_eq] at h
  rw [fmtNNN_toNat, opNnn_toNat]
  omega

theorem fmtXKK_of_opFam {op : Word} {f : BitVec 4} (h : opFam op = f.toNat) : fmtXKK f (opX op) (opKk op) = op := by
  apply BitVec.eq_of_toNat_eq
  rw [opFam_eq] at h
  rw [fmtXKK_toNat, opX_val, opKk_toNat]
  omega

theorem fmtXYN_of_opFam {op : Word} {f : BitVec 4} (h : opFam op = f.toNat) :
    fmtXYN f (opX op) (opY op) (opN op) = op := by
  apply BitVec.eq_of_toNat_eq
  rw [opFam_eq] at h
  rw [fmtXYN_toNat, opX_val, opY_val, opN_val]
  omega

theorem fmtXKK_of_selector {op : Word} {f : BitVec 4} {kk : Byte} (h : opFam op = f.toNat) (hkk : (opKk op).toNat = kk.toNat) :
    fmtXKK f (opX op) kk = op := by
  rw [← BitVec.eq_of_toNat_eq hkk, fmtXKK_of_opFam h]

theorem fmtXYN_of_selector {op : Word} {f : BitVec 4} {n : Fin 16} (h : opFam op = f.toNat) (hn : (opN op).val = n.val) :
    fmtXYN f (opX op) (opY op) n = op := by
  rw [← Fin.ext hn, fmtXYN_of_opFam h]

theorem fmtXKK_and_F0FF (f : BitVec 4) (x : Reg) (kk : Byte) : fmtXKK f x kk &&& 0xF0FF = fmtXKK f 0 kk := by
  have hmask : (0xF0FF : Word) = BitVec.allOnes 4 ++ 0#4 ++ BitVec.allOnes 8 := by decide
  rw [hmask, fmtXKK, fmtXKK, BitVec.and_append, BitVec.and_append, BitVec.and_allOnes, BitVec.and_allOnes, BitVec.and_zero]
  rfl

theorem fmtXYN_and_FFF0 (f : BitVec 4) (x y n : Fin 16) : fmtXYN f x y n &&& 0xFFF0 = fmtXYN f x y 0 := by
  have hmask : (0xFFF0 : Word) = BitVec.allOnes 4 ++ BitVec.allOnes 4 ++ BitVec.allOnes 4 ++ 0#4 := by decide
  rw [hmask, fmtXYN, fmtXYN, BitVec.and_append, BitVec.and_append, BitVec.and_append]
  simp only [BitVec.and_allOnes, BitVec.and_zero]
  rfl

theorem fmtXYN_and_FF0F (f : BitVec 4) (x y n : Fin 16) : fmtXYN f x y n &&& 0xFF0F = fmtXYN f x 0 n := by
  have hmask : (0xFF0F : Word) = BitVec.allOnes 4 ++ BitVec.allOnes 4 ++ 0#4 ++ BitVec.allOnes 4 := by decide
  rw [hmask, fmtXYN, fmtXYN, BitVec.and_append, BitVec.and_append, BitVec.and_append]
  simp only [BitVec.and_allOnes, BitVec.and_zero]
  rfl

/-- The word `op` stands for the instruction `i`: but for the don't-care bits it is the word the encoder writes (R51, R52). -/
def StandsFor (op : Word) (i : Instr) : Prop := WellFormed i ∧ encode i = op &&& careMask i

theorem standsFor_of_encode {op : Word} {i : Instr} (hwf : WellFormed i) (hmask : careMask i = 0xFFFF) (h : encode i = op) :
    StandsFor op i := by
  refine ⟨hwf, ?_⟩
  rw [hmask, h]
  exact BitVec.and_allOnes.symm

theorem standsFor_unrecognized {op : Word} (h : isUnrecognizedWord op = true) : StandsFor op (.unrecognized op) :=
  standsFor_of_encode h rfl rfl

theorem and_F0FF_of_selector {op : Word} {f : BitVec 4} {kk : Byte} (h : opFam op = f.toNat) (hkk : (opKk op).toNat = kk.toNat) :
    op &&& 0xF0FF = fmtXKK f 0 kk := by
  rw [← fmtXKK_and_F0FF f (opX op), fmtXKK_of_selector h hkk]

theorem and_FFF0_of_opFam {op : Word} {f : BitVec 4} (h : opFam op = f.toNat) : op &&& 0xFFF0 = fmtXYN f (opX op) (opY op) 0 := by
  rw [← fmtXYN_and_FFF0 f _ _ (opN op), fmtXYN_of_opFam h]

theorem and_FF0F_of_selector {op : Word} {f : BitVec 4} {n : Fin 16} (h : opFam op = f.toNat) (hn : (opN op).val = n.val) :
    op &&& 0xFF0F = fmtXYN f (opX op) 0 n := by
  rw [← fmtXYN_and_FF0F f _ (opY op), fmtXYN_of_selector h hn]

/-- The low byte of a word is the low byte of its address field. -/
theorem opKk_eq_opNnn_mod (op : Word) : (opKk op).toNat = (opNnn op).toNat % 256 := by
  rw [opKk_toNat, opNnn_toNat]
  omega

theorem standsFor_decodeFamily0 {op : Word} (h : opFam op = 0x0) : StandsFor op (decodeFamily0 op) := by
  unfold decodeFamily0
  split
  · next hkk => exact ⟨rfl, (and_F0FF_of_selector (f := 0x0) (kk := 0xE0) h hkk).symm⟩
  · next hkk => exact ⟨rfl, (and_F0FF_of_selector (f := 0x0) (kk := 0xEE) h hkk).symm⟩
  · next hcls hret =>
    refine standsFor_of_encode ((sysSelectorFree_iff _).2 ?_) rfl (fmtNNN_of_opFam h)
    rw [← opKk_eq_opNnn_mod]
    exact ⟨hcls, hret⟩

theorem standsFor_decodeFamily8 {op : Word} (h : opFam op = 0x8) : StandsFor op (decodeFamily8 op) := by
  unfold decodeFamily8
  split
  -- SHR and SHL have a don't-care nibble (R52)
  case h_7 hn => exact ⟨rfl, (and_FF0F_of_selector (f := 0x8) h hn).symm⟩
  case h_9 hn => exact ⟨rfl, (and_FF0F_of_selector (f := 0x8) h hn).symm⟩
  case h_10 =>
    refine standsFor_unrecognized ((isUnrecognizedWord_iff op).2 (.inl ⟨h, ?_⟩))
    simp only [imp_false, List.mem_cons, List.not_mem_nil] at *
    omega
  all_goals next hn => exact standsFor_of_encode rfl rfl (fmtXYN_of_selector (f := 0x8) h hn)

theorem standsFor_decodeFamilyE {op : Word} (h : opFam op = 0xE) : StandsFor op (decodeFamilyE op) := by
  unfold decodeFamilyE
  split
  case h_3 => exact standsFor_unrecognized ((isUnrecognizedWord_iff op).2 (by simp_all))
  all_goals next hkk => exact standsFor_of_encode rfl rfl (fmtXKK_of_selector (f := 0xE) h hkk)

theorem standsFor_decodeFamilyF {op : Word} (h : opFam op = 0xF) : StandsFor op (decodeFamilyF op) := by
  unfold decodeFamilyF
  split
  case h_10 => exact standsFor_unrecognized ((isUnrecognizedWord_iff op).2 (by simp_all))
  all_goals next hkk => exact standsFor_of_encode rfl rfl (fmtXKK_of_selector (f := 0xF) h hkk)

theorem opFam_lt (op : Word) : opFam op < 16 := (op.extractLsb' 12 4).isLt

theorem standsFor_decode (op : Word) : StandsFor op (decode op) := by
  unfold decode
  split
  case h_1 h => exact standsFor_decodeFamily0 h
  case h_9 h => exact standsFor_decodeFamily8 h
  case h_15 h => exact standsFor_decodeFamilyE h
  case h_16 =>
    refine standsFor_decodeFamilyF ?_
    have hlt := opFam_lt op
    simp only [imp_false] at *
    omega
  -- families 5 and 9 have a don't-care nibble (R52)
  case h_6 h => exact ⟨rfl, (and_FFF0_of_opFam (f := 0x5) h).symm⟩
  case h_10 h => exact ⟨rfl, (and_FFF0_of_opFam (f := 0x9) h).symm⟩
  case h_14 h => exact standsFor_of_encode rfl rfl (fmtXYN_of_opFam (f := 0xD) h)
  case h_2 | h_3 | h_11 | h_12 => exact standsFor_of_encode rfl rfl (fmtNNN_of_opFam (by assumption))
  case h_4 | h_5 | h_7 | h_8 | h_13 => exact standsFor_of_encode rfl rfl (fmtXKK_of_opFam (by assumption))

/-- Settles O3: family by family, every decoded word stands for its instruction. -/
theorem encodeAfterDecode : Obligations.EncodeAfterDecode := standsFor_decode

/-! ### The words of R54 -/

theorem unmatchedWord_iff (op : Word) :
    UnmatchedWord op.toNat ↔ (opFam op = 0x0 ∧ sysSelectorFree (opNnn op) = true) ∨ isUnrecognizedWord op = true := by
  rw [sysSelectorFree_iff, ← opKk_eq_opNnn_mod, isUnrecognizedWord_iff, opFam_eq, opN_val, opKk_toNat]
  simp [UnmatchedWord]

theorem decode_eq_unrecognized_iff (op : Word) : (∃ w, decode op = .unrecognized w) ↔ isUnrecognizedWord op = true := by
  refine ⟨fun ⟨w, hw⟩ => ?_, fun h => ⟨op, decode_unrecognized h⟩⟩
  obtain ⟨hwf, henc⟩ := hw ▸ standsFor_decode op
  rw [show w = op from henc.trans BitVec.and_allOnes] at hwf
  exact hwf

theorem decode_eq_sys_iff (op : Word) :
    (∃ nnn, decode op = .sys nnn) ↔ opFam op = 0x0 ∧ sysSelectorFree (opNnn op) = true := by
  constructor
  · rintro ⟨nnn, h⟩
    obtain ⟨hwf, henc⟩ := h ▸ standsFor_decode op
    rw [← show fmtNNN 0x0 nnn = op from henc.trans BitVec.and_allOnes]
    exact ⟨opFam_fmtNNN 0x0 nnn, by rwa [opNnn_fmtNNN]⟩
  · rintro ⟨hfam, hfree⟩
    refine ⟨opNnn op, ?_⟩
    rw [← decode_fmtNNN_zero hfree, fmtNNN_of_opFam hfam]

/-- The decoder ignores exactly the words of R54. -/
theorem decode_ignored_iff (op : Word) :
    ((∃ nnn, decode op = .sys nnn) ∨ ∃ w, decode op = .unrecognized w) ↔ UnmatchedWord op.toNat := by
  rw [decode_eq_sys_iff, decode_eq_unrecognized_iff, unmatchedWord_iff]

/-- Settles O5: both directions of each catch-all follow from the decoder and the encoder undoing each other. -/
theorem unmatchedWordsAreExactlyThoseListed : Obligations.UnmatchedWordsAreExactlyThoseListed := by
  intro w hw
  rw [decode_ignored_iff, BitVec.toNat_ofNat, Nat.mod_eq_of_lt hw]

/-- Settles O1: the decoder runs on each of the written-out words. -/
theorem sampleWordsDecode : Obligations.SampleWordsDecode := by
  unfold Obligations.SampleWordsDecode
  decide

/-! ### The opcode table (R53) -/

theorem opFam_and_F000 (op : Word) : opFam (op &&& 0xF000) = opFam op := by
  have hmask : (0xF000 : Word).extractLsb' 12 4 = BitVec.allOnes 4 := by decide
  rw [opFam, BitVec.extractLsb'_and, hmask, BitVec.and_allOnes, opFam]

theorem opN_and_F00F (op : Word) : opN (op &&& 0xF00F) = opN op := by
  have hmask : (0xF00F : Word).extractLsb' 0 4 = BitVec.allOnes 4 := by decide
  rw [opN, BitVec.extractLsb'_and, hmask, BitVec.and_allOnes, opN]

theorem opKk_and_F0FF (op : Word) : opKk (op &&& 0xF0FF) = opKk op := by
  have hmask : (0xF0FF : Word).extractLsb' 0 8 = BitVec.allOnes 8 := by decide
  rw [opKk, BitVec.extractLsb'_and, hmask, BitVec.and_allOnes, opKk]

theorem fmtXYN_and_F00F (f : BitVec 4) (x y n : Fin 16) : fmtXYN f x y n &&& 0xF00F = fmtXYN f 0 0 n := by
  have hmask : (0xF00F : Word) = BitVec.allOnes 4 ++ 0#4 ++ 0#4 ++ BitVec.allOnes 4 := by decide
  rw [hmask, fmtXYN, fmtXYN, BitVec.and_append, BitVec.and_append, BitVec.and_append]
  simp only [BitVec.and_allOnes, BitVec.and_zero]
  rfl

theorem fmtNNN_and_F000 (f : BitVec 4) (nnn : BitVec 12) : fmtNNN f nnn &&& 0xF000 = fmtNNN f 0 := by
  have hmask : (0xF000 : Word) = BitVec.allOnes 4 ++ 0#12 := by decide
  rw [hmask, fmtNNN, fmtNNN, BitVec.and_append, BitVec.and_allOnes, BitVec.and_zero]
  rfl

theorem hits_iff (r : OpRow) (op : Word) : r.hits op = true ↔ op &&& r.mask = r.pattern := beq_iff_eq

/-- A word that a row matches agrees with the row's pattern on all the bits that the row tests. -/
theorem and_eq_of_hits {op m : Word} {q : OpRow} (hq : q.hits op = true) (hm : q.mask &&& m = m) :
    op &&& m = q.pattern &&& m := by
  rw [← (hits_iff q op).1 hq, BitVec.and_assoc, hm]

/-- Two rows that one word matches agree on the bits that both of them test. -/
theorem hits_overlap {op : Word} {q r : OpRow} (hq : q.hits op = true) (hr : r.hits op = true) :
    q.pattern &&& r.mask = r.pattern &&& q.mask := by
  rw [← (hits_iff q op).1 hq, ← (hits_iff r op).1 hr, BitVec.and_assoc, BitVec.and_assoc, BitVec.and_comm q.mask]

/-- Some row of the name given is the one that R53 selects for the word. -/
def Selects (op : Word) (name : String) : Prop :=
  ∃ r ∈ opcodeTable, r.name = name ∧ r.hits op = true ∧ ∀ q ∈ opcodeTable, q.hits op = true → q ≠ r → r.priority < q.priority

/-- No two rows of priority 1 overlap. -/
theorem one_lt_priority_of_overlap : ∀ r ∈ opcodeTable, r.priority = 1 → ∀ q ∈ opcodeTable,
    q.pattern &&& r.mask = r.pattern &&& q.mask → q ≠ r → 1 < q.priority := by
  decide

theorem selects_of_hits {op : Word} {r : OpRow} (hr : r ∈ opcodeTable) (hone : r.priority = 1) (hit : r.hits op = true) :
    Selects op r.name :=
  ⟨r, hr, rfl, hit, fun q hq hqit hne => hone ▸ one_lt_priority_of_overlap r hr hone q hq (hits_overlap hqit hit) hne⟩

/-! The row of each kind of pattern; `hrow` is decided where the row's name and pattern are known. -/

theorem selects_of_opFam {op : Word} {fam : Nat} {name : String} (h : opFam op = fam)
    (hrow : ⟨name, 0xF000, fmtNNN (BitVec.ofNat 4 fam) 0, 1⟩ ∈ opcodeTable) : Selects op name := by
  have hfam : opFam op = (BitVec.ofNat 4 fam).toNat := by
    rw [BitVec.toNat_ofNat, ← h, Nat.mod_eq_of_lt (opFam_lt op)]
  refine selects_of_hits hrow rfl ((hits_iff _ op).2 ?_)
  rw [← fmtNNN_and_F000 _ (opNnn op), fmtNNN_of_opFam hfam]

theorem selects_of_opN {op : Word} {f : BitVec 4} {n : Nat} {name : String} (h : opFam op = f.toNat) (hn : (opN op).val = n)
    (hrow : ⟨name, 0xF00F, fmtXYN f 0 0 (Fin.ofNat 16 n), 1⟩ ∈ opcodeTable) : Selects op name := by
  refine selects_of_hits hrow rfl ((hits_iff _ op).2 ?_)
  rw [← hn, Fin.ofNat_val_eq_self, ← fmtXYN_and_F00F f (opX op) (opY op), fmtXYN_of_opFam h]

theorem selects_of_opKk {op : Word} {f : BitVec 4} {kk : Nat} {name : String} (h : opFam op = f.toNat) (hkk : (opKk op).toNat = kk)
    (hrow : ⟨name, 0xF0FF, fmtXKK f 0 (BitVec.ofNat 8 kk), 1⟩ ∈ opcodeTable) : Selects op name := by
  refine selects_of_hits hrow rfl ((hits_iff _ op).2 ?_)
  rw [← hkk, BitVec.ofNat_toNat, BitVec.setWidth_eq, ← fmtXKK_and_F0FF f (opX op), fmtXKK_of_opFam h]

/-- Every row but the catch-all tests the selector of its family, and no pattern is an unrecognized word. -/
theorem row_tests_selector : ∀ q ∈ opcodeTable, q.name ≠ "UNRECOGNIZED" →
    isUnrecognizedWord q.pattern = false ∧ q.mask &&& 0xF000 = 0xF000 ∧
    (opFam q.pattern = 0x8 → q.mask &&& 0xF00F = 0xF00F) ∧
    (opFam q.pattern = 0xE ∨ opFam q.pattern = 0xF → q.mask &&& 0xF0FF = 0xF0FF) := by
  decide

theorem isUnrecognizedWord_of_hits {op : Word} {q : OpRow} (hq : q ∈ opcodeTable) (hname : q.name ≠ "UNRECOGNIZED")
    (hit : q.hits op = true) : isUnrecognizedWord op = false := by
  obtain ⟨hpat, hfam, hn, hkk⟩ := row_tests_selector q hq hname
  have hfam : opFam op = opFam q.pattern := by
    rw [← opFam_and_F000 op, and_eq_of_hits hit hfam, opFam_and_F000]
  have hn : opFam op = 0x8 → opN op = opN q.pattern := fun h => by
    rw [← opN_and_F00F op, and_eq_of_hits hit (hn (hfam ▸ h)), opN_and_F00F]
  have hkk : opFam op = 0xE ∨ opFam op = 0xF → opKk op = opKk q.pattern := fun h => by
    rw [← opKk_and_F0FF op, and_eq_of_hits hit (hkk (hfam ▸ h)), opKk_and_F0FF]
  rw [← Bool.not_eq_true, isUnrecognizedWord_iff] at hpat ⊢
  rintro (h | h | h)
  · exact hpat (.inl (hfam ▸ hn h.1 ▸ h))
  · exact hpat (.inr (.inl (hfam ▸ hkk (.inl h.1) ▸ h)))
  · exact hpat (.inr (.inr (hfam ▸ hkk (.inr h.1) ▸ h)))

theorem selects_unrecognized {op : Word} (h : isUnrecognizedWord op = true) : Selects op "UNRECOGNIZED" := by
  refine ⟨⟨"UNRECOGNIZED", 0x0000, 0x0000, 9⟩, by decide, rfl, (hits_iff _ op).2 BitVec.and_zero, fun q hq hit hne => ?_⟩
  have hunique : ∀ q ∈ opcodeTable, q.name = "UNRECOGNIZED" → q = ⟨"UNRECOGNIZED", 0x0000, 0x0000, 9⟩ := by decide
  exact absurd h (ne_true_of_eq_false (isUnrecognizedWord_of_hits hq (fun hname => hne (hunique q hq hname)) hit))

theorem selects_sys {op : Word} (h : opFam op = 0x0) (hfree : sysSelectorFree (opNnn op) = true) : Selects op "SYS" := by
  have hit : OpRow.hits ⟨"SYS", 0xF000, 0x0000, 2⟩ op = true := by
    rw [hits_iff, ← fmtNNN_of_opFam (f := 0x0) h]
    exact fmtNNN_and_F000 0x0 (opNnn op)
  refine ⟨_, by decide, rfl, hit, fun q hq hqit hne => ?_⟩
  have hrows : ∀ q ∈ opcodeTable, q.pattern &&& 0xF000 = 0x0000 &&& q.mask → q ≠ ⟨"SYS", 0xF000, 0x0000, 2⟩ →
      2 < q.priority ∨ q.mask &&& 0xF0FF = 0xF0FF ∧ ((opKk q.pattern).toNat = 0xE0 ∨ (opKk q.pattern).toNat = 0xEE) := by
    decide
  rcases hrows q hq (hits_overlap hqit hit) hne with hlt | ⟨hmask, hkk⟩
  · exact hlt
  · rw [← opKk_and_F0FF, ← and_eq_of_hits hqit hmask, opKk_and_F0FF, opKk_eq_opNnn_mod] at hkk
    obtain ⟨hcls, hret⟩ := (sysSelectorFree_iff _).1 hfree
    omega

theorem selects_decodeFamily0 {op : Word} (h : opFam op = 0x0) : Selects op (rowName (decodeFamily0 op)) := by
  have hwf : WellFormed (decodeFamily0 op) := (standsFor_decodeFamily0 h).1
  revert hwf
  unfold decodeFamily0
  split
  case h_3 => exact selects_sys h
  all_goals next hkk => exact fun _ => selects_of_opKk (f := 0x0) h hkk (of_decide_eq_true rfl)

theorem selects_decodeFamily8 {op : Word} (h : opFam op = 0x8) : Selects op (rowName (decodeFamily8 op)) := by
  have hwf : WellFormed (decodeFamily8 op) := (standsFor_decodeFamily8 h).1
  revert hwf
  unfold decodeFamily8
  split
  case h_10 => exact selects_unrecognized
  all_goals next hn => exact fun _ => selects_of_opN (f := 0x8) h hn (of_decide_eq_true rfl)

theorem selects_decodeFamilyE {op : Word} (h : opFam op = 0xE) : Selects op (rowName (decodeFamilyE op)) := by
  have hwf : WellFormed (decodeFamilyE op) := (standsFor_decodeFamilyE h).1
  revert hwf
  unfold decodeFamilyE
  split
  case h_3 => exact selects_unrecognized
  all_goals next hkk => exact fun _ => selects_of_opKk (f := 0xE) h hkk (of_decide_eq_true rfl)

theorem selects_decodeFamilyF {op : Word} (h : opFam op = 0xF) : Selects op (rowName (decodeFamilyF op)) := by
  have hwf : WellFormed (decodeFamilyF op) := (standsFor_decodeFamilyF h).1
  revert hwf
  unfold decodeFamilyF
  split
  case h_10 => exact selects_unrecognized
  all_goals next hkk => exact fun _ => selects_of_opKk (f := 0xF) h hkk (of_decide_eq_true rfl)

/-- Settles O4: each branch of the decoder names the row that its selector bits select. -/
theorem decodeSelectsTableRow : Obligations.DecodeSelectsTableRow := by
  intro op
  change Selects op (rowName (decode op))
  unfold decode
  split
  case h_1 h => exact selects_decodeFamily0 h
  case h_9 h => exact selects_decodeFamily8 h
  case h_15 h => exact selects_decodeFamilyE h
  case h_16 =>
    have hlt := opFam_lt op
    simp only [imp_false] at *
    exact selects_decodeFamilyF (by omega)
  all_goals next h => exact selects_of_opFam h (of_decide_eq_true rfl)

end Sys2Proof.Proofs.Encoding
end

section
/-!
PROOFS about the frame of every instruction: which registers, parts and memory cells it can change (R11, R12, R15, R16, R20, R24, R67),
and what follows for the whole instruction set.
-/
namespace Sys2Proof.Proofs.Frames
open Sys2Proof Sys2Proof.Machine Sys2Proof.Claims

/-! ### The frames of the shared operations -/

theorem sameExcept_refl (regs : List Reg) (parts : List Part) (stored : List Nat) (s : State) :
    SameExcept regs parts stored s s := by
  constructor <;> intros <;> rfl

theorem sameExcept_pushAndJump (target : Word) (s : State) : SameExcept [] [.pc, .sp, .stack] [] s (pushAndJump target s) := by
  by_cases h : s.sp.val < 16
  · rw [pushAndJump_of_room target h]
    exact ControlFlow.sameExcept_push s _ _ _ _
  · rw [pushAndJump_of_full target (by omega)]
    exact sameExcept_refl _ _ _ s

theorem sameExcept_popAndJump (s : State) : SameExcept [] [.pc, .sp] [] s (popAndJump s) := by
  by_cases h : 0 < s.sp.val
  · rw [popAndJump_of_held h]
    constructor <;> simp
  · rw [popAndJump_of_empty (by omega)]
    exact sameExcept_refl _ _ _ s

/-- An update of V alone changes the registers whose values differ. -/
theorem sameExcept_of_v {s t : State} {regs : List Reg} (hv : t = { s with v := t.v }) (hreg : ∀ r, r ∉ regs → t.reg r = s.reg r) :
    SameExcept regs [] [] s t := by
  rw [hv] at hreg ⊢
  constructor
  case v => exact hreg
  all_goals simp

theorem ne_of_not_mem_pair {r x y : Reg} (h : r ∉ [x, y]) : r ≠ x ∧ r ≠ y := by simpa using h

theorem sameExcept_writeLatched (s : State) (x : Reg) (flag result : Byte) :
    SameExcept [x, vf] [] [] s (writeLatched s x flag result) :=
  sameExcept_of_v (writeLatched_fields s x flag result) fun _ hr =>
    writeLatched_reg_other s flag result (ne_of_not_mem_pair hr).1 (ne_of_not_mem_pair hr).2

theorem sameExcept_writeInOrder (s : State) (x y : Reg) (flag result : Byte → Byte → Byte) :
    SameExcept [x, vf] [] [] s (writeInOrder s x y flag result) :=
  sameExcept_of_v (writeInOrder_fields s x y flag result) fun _ hr =>
    writeInOrder_reg_other s y flag result (ne_of_not_mem_pair hr).1 (ne_of_not_mem_pair hr).2

/-- The registers V0 to Vx. -/
def regsUpTo (x : Reg) : List Reg := (List.finRange 16).filter (fun k => decide (k.val ≤ x.val))

theorem mem_regsUpTo {x r : Reg} : r ∈ regsUpTo x ↔ r.val ≤ x.val := by simp [regsUpTo]

theorem sameExcept_loadRegs (s : State) (base : Nat) (x : Reg) : SameExcept (regsUpTo x) [] [] s (loadRegs s base (x.val + 1)) :=
  sameExcept_of_v (loadRegs_fields s base (x.val + 1)) fun r hr => by
    rw [mem_regsUpTo] at hr
    rw [loadRegs_reg s base x.isLt, if_neg (by omega)]

theorem not_mem_cellsOf {base len a : Nat} : a ∉ cellsOf base len ↔ ∀ k, k < len → a ≠ cellOf (base + k) := by
  simp only [cellsOf, List.mem_map, List.mem_range, not_exists, not_and, ne_eq, eq_comm]

theorem sameExcept_storeBytes (s : State) (base : Nat) (bytes : Nat → Byte) (len : Nat) :
    SameExcept [] [] (cellsOf base len) s (storeBytes s base bytes len) := by
  have hmem : ∀ a, a ∉ cellsOf base len → (storeBytes s base bytes len).mem.read a = s.mem.read a := fun _ ha =>
    storeBytes_read_outside s base bytes (not_mem_cellsOf.1 ha)
  rw [storeBytes_fields] at hmem ⊢
  constructor
  case mem => exact hmem
  all_goals simp

theorem sameExcept_drawSprite (x y : Reg) (n : Nat) (s : State) : SameExcept [vf] [.fb] [] s (drawSprite x y n s) := by
  rw [drawSprite_fields]
  constructor
  case v => exact fun r hr => setReg_reg_ne s _ (List.ne_of_not_mem_cons hr)
  all_goals simp

theorem sameExcept_countedDraw (s : State) (x : Reg) (b : Byte) : SameExcept [x] [.draws] [] s (s.setReg x b).countDraw := by
  constructor
  case v => exact fun r hr => setReg_reg_ne s b (List.ne_of_not_mem_cons hr)
  all_goals simp

/-! ### The frame of every instruction -/

/-- The V registers that an instruction can write, VF as a side effect among them (R11, R12). -/
def writtenRegs : Instr → List Reg
  | .ldImm x _ | .addImm x _ | .rnd x _ | .ldReg x _ | .orReg x _ | .andReg x _ | .xorReg x _ | .ldVxDt x | .ldVxK x => [x]
  | .addReg x _ | .sub x _ | .subn x _ | .shr x | .shl x => [x, vf]
  | .drw _ _ _ => [vf]
  | .ldVxMem x => regsUpTo x
  | .sys _ | .cls | .ret | .jp _ | .call _ | .seImm _ _ | .sneImm _ _ | .seReg _ _ | .sneReg _ _ | .ldI _ | .jpV0 _ | .skp _
  | .sknp _ | .ldDtVx _ | .ldStVx _ | .addI _ | .ldF _ | .ldB _ | .ldMemVx _ | .unrecognized _ => []

/-- The other parts that an instruction can write. -/
def writtenParts : Instr → List Part
  | .call _ => [.pc, .sp, .stack]
  | .ret => [.pc, .sp]
  | .jp _ | .jpV0 _ | .seImm _ _ | .sneImm _ _ | .seReg _ _ | .sneReg _ _ | .skp _ | .sknp _ | .ldVxK _ => [.pc]
  | .cls | .drw _ _ _ => [.fb]
  | .ldI _ | .addI _ | .ldF _ => [.i]
  | .ldDtVx _ => [.dt]
  | .ldStVx _ => [.st]
  | .rnd _ _ => [.draws]
  | .sys _ | .ldImm _ _ | .addImm _ _ | .ldReg _ _ | .orReg _ _ | .andReg _ _ | .xorReg _ _ | .addReg _ _ | .sub _ _ | .subn _ _
  | .shr _ | .shl _ | .ldVxDt _ | .ldB _ | .ldMemVx _ | .ldVxMem _ | .unrecognized _ => []

/-- The memory cells that an instruction can write. -/
def storedCells (i : Instr) (s : State) : List Nat :=
  match i with
  | .ldB _ => cellsOf s.i.toNat 3
  | .ldMemVx x => cellsOf s.i.toNat (x.val + 1)
  | _ => []

theorem execLdVxK_sameExcept {x : Reg} {s t : State} (h : execLdVxK x s = .next t) : SameExcept [x] [.pc] [] s t := by
  unfold execLdVxK at h
  split at h <;> obtain rfl := Host.Outcome.next.inj h
  · constructor
    case v => exact fun r hr => setReg_reg_ne s _ (List.ne_of_not_mem_cons hr)
    all_goals simp
  · constructor <;> simp

theorem execRnd_sameExcept {x : Reg} {kk : Byte} {s t : State} (h : execRnd x kk s = .next t) :
    SameExcept [x] [.draws] [] s t := by
  unfold execRnd at h
  split at h <;> obtain rfl := Host.Outcome.next.inj h
  · exact sameExcept_countedDraw s x _
  · exact sameExcept_refl _ _ _ s

/-- Nothing changes but what the instruction can write. -/
theorem exec_sameExcept {i : Instr} {s t : State} (h : exec i s = .next t) :
    SameExcept (writtenRegs i) (writtenParts i) (storedCells i s) s t := by
  cases i with
  | ldB x => obtain ⟨-, rfl⟩ := exec_ldB_next h; exact sameExcept_storeBytes s _ _ _
  | ldMemVx x => obtain ⟨-, rfl⟩ := exec_ldMemVx_next h; exact sameExcept_storeBytes s _ _ _
  | ldVxMem x => obtain ⟨-, rfl⟩ := exec_ldVxMem_next h; exact sameExcept_loadRegs s _ x
  | drw x y n => obtain ⟨-, rfl⟩ := exec_drw_next h; exact sameExcept_drawSprite x y n.val s
  | ldVxK x => exact execLdVxK_sameExcept h
  | rnd x kk => exact execRnd_sameExcept h
  | sys _ | unrecognized _ => obtain rfl := Host.Outcome.next.inj h; exact sameExcept_refl _ _ _ _
  | cls => obtain rfl := Host.Outcome.next.inj h; exact Display.sameExcept_setFb s _
  | ret => obtain rfl := Host.Outcome.next.inj h; exact sameExcept_popAndJump s
  | call nnn => obtain rfl := Host.Outcome.next.inj h; exact sameExcept_pushAndJump _ s
  | jp _ | jpV0 _ => obtain rfl := Host.Outcome.next.inj h; exact ControlFlow.sameExcept_setPc s _
  | seImm _ _ | sneImm _ _ | seReg _ _ | sneReg _ _ | skp _ | sknp _ =>
    obtain rfl := Host.Outcome.next.inj h; exact ControlFlow.sameExcept_skipIf _ s
  | ldImm x _ | addImm x _ | ldReg x _ | orReg x _ | andReg x _ | xorReg x _ | ldVxDt x =>
    obtain rfl := Host.Outcome.next.inj h; exact Alu.sameExcept_setReg s x _
  | addReg x _ => obtain rfl := Host.Outcome.next.inj h; exact sameExcept_writeLatched s x _ _
  | sub x _ | subn x _ | shr x | shl x => obtain rfl := Host.Outcome.next.inj h; exact sameExcept_writeInOrder s x _ _ _
  | ldI _ | addI _ | ldF _ => obtain rfl := Host.Outcome.next.inj h; exact IndexMemory.sameExcept_setI s _
  | ldDtVx _ => obtain rfl := Host.Outcome.next.inj h; exact KeypadTimers.sameExcept_setDt s _
  | ldStVx _ => obtain rfl := Host.Outcome.next.inj h; exact KeypadTimers.sameExcept_setSt s _

section written
variable {i : Instr}

/-! Read backwards: a part that can be written names the instruction. -/

theorem eq_of_dt_written (h : Part.dt ∈ writtenParts i) : ∃ x, i = .ldDtVx x := by cases i <;> simp_all [writtenParts]
theorem eq_of_st_written (h : Part.st ∈ writtenParts i) : ∃ x, i = .ldStVx x := by cases i <;> simp_all [writtenParts]
theorem eq_of_draws_written (h : Part.draws ∈ writtenParts i) : ∃ x kk, i = .rnd x kk := by cases i <;> simp_all [writtenParts]
theorem eq_of_fb_written (h : Part.fb ∈ writtenParts i) : i = .cls ∨ ∃ x y n, i = .drw x y n := by
  cases i <;> simp_all [writtenParts]
theorem eq_of_i_written (h : Part.i ∈ writtenParts i) : (∃ nnn, i = .ldI nnn) ∨ (∃ x, i = .addI x) ∨ (∃ x, i = .ldF x) := by
  cases i <;> simp_all [writtenParts]
theorem eq_of_sp_written (h : Part.sp ∈ writtenParts i) : i = .ret ∨ ∃ nnn, i = .call nnn := by
  cases i <;> simp_all [writtenParts]
theorem eq_of_stack_written (h : Part.stack ∈ writtenParts i) : ∃ nnn, i = .call nnn := by cases i <;> simp_all [writtenParts]
theorem key_not_written (i : Instr) : Part.key ∉ writtenParts i := by cases i <;> simp [writtenParts]
theorem schedule_not_written (i : Instr) : Part.schedule ∉ writtenParts i := by cases i <;> simp [writtenParts]

theorem destination_of_written {r : Reg} (h : r ∈ writtenRegs i) : Destination i r ∨ (r = vf ∧ WritesFlag i) := by
  cases i <;> simp_all [writtenRegs, Destination, WritesFlag, mem_regsUpTo]
  all_goals exact h.imp_left Eq.symm

end written

/-- Settles O40: each part is in the frame of no instruction, or of one instruction only. -/
theorem keysAndTimersHaveTheirOwnWriters : Obligations.KeysAndTimersHaveTheirOwnWriters := by
  intro i s t h
  have hframe := exec_sameExcept h
  exact ⟨hframe.key (key_not_written i), hframe.config, hframe.schedule (schedule_not_written i),
    fun hne => eq_of_dt_written (not_imp_comm.1 hframe.dt hne), fun hne => eq_of_st_written (not_imp_comm.1 hframe.st hne),
    fun hne => eq_of_draws_written (not_imp_comm.1 hframe.draws hne)⟩

/-- Settles O43: the frame lists the named destinations, and VF for the instructions that write the flag. -/
theorem registersChangeOnlyAsDestinationOrFlag : Obligations.RegistersChangeOnlyAsDestinationOrFlag := fun _ _ _ r h hne =>
  destination_of_written (not_imp_comm.1 ((exec_sameExcept h).v r) hne)

/-- Settles O44: I is in the frame of three instructions only. -/
theorem indexRegisterHasThreeWriters : Obligations.IndexRegisterHasThreeWriters := fun _ _ _ h hne =>
  eq_of_i_written (not_imp_comm.1 (exec_sameExcept h).i hne)

/-! ### Memory as a list (log 4) -/

theorem skipIf_mem (cond : Bool) (s : State) : (skipIf cond s).mem = s.mem := by
  rw [skipIf_fields]
  rfl

theorem pushAndJump_mem (target : Word) (s : State) : (pushAndJump target s).mem = s.mem := by
  unfold pushAndJump
  split <;> rfl

theorem popAndJump_mem (s : State) : (popAndJump s).mem = s.mem := by
  unfold popAndJump
  split <;> rfl

theorem writeLatched_mem (s : State) (x : Reg) (flag result : Byte) : (writeLatched s x flag result).mem = s.mem := by
  rw [writeLatched_fields]

theorem writeInOrder_mem (s : State) (x y : Reg) (flag result : Byte → Byte → Byte) :
    (writeInOrder s x y flag result).mem = s.mem := by
  rw [writeInOrder_fields]

theorem loadRegs_mem (s : State) (base len : Nat) : (loadRegs s base len).mem = s.mem := by
  rw [loadRegs_fields]

theorem drawSprite_mem (x y : Reg) (n : Nat) (s : State) : (drawSprite x y n s).mem = s.mem := by
  rw [drawSprite_fields]
  rfl

theorem execLdVxK_mem {x : Reg} {s t : State} (h : execLdVxK x s = .next t) : t.mem = s.mem := by
  unfold execLdVxK at h
  split at h <;> obtain rfl := Host.Outcome.next.inj h <;> rfl

theorem execRnd_mem {x : Reg} {kk : Byte} {s t : State} (h : execRnd x kk s = .next t) : t.mem = s.mem := by
  unfold execRnd at h
  split at h <;> obtain rfl := Host.Outcome.next.inj h <;> rfl

/-- Memory is the list it was, or the instruction is one of the two stores and stored its bytes. -/
theorem exec_mem {i : Instr} {s t : State} (h : exec i s = .next t) :
    t.mem = s.mem ∨ (∃ x, i = .ldB x ∨ i = .ldMemVx x) ∧ ∃ base bytes len, t = storeBytes s base bytes len := by
  cases i with
  | ldB x => obtain ⟨-, rfl⟩ := exec_ldB_next h; exact .inr ⟨⟨x, .inl rfl⟩, _, _, _, rfl⟩
  | ldMemVx x => obtain ⟨-, rfl⟩ := exec_ldMemVx_next h; exact .inr ⟨⟨x, .inr rfl⟩, _, _, _, rfl⟩
  | ldVxMem x => obtain ⟨-, rfl⟩ := exec_ldVxMem_next h; exact .inl (loadRegs_mem s _ _)
  | drw x y n => obtain ⟨-, rfl⟩ := exec_drw_next h; exact .inl (drawSprite_mem x y _ s)
  | ldVxK x => exact .inl (execLdVxK_mem h)
  | rnd x kk => exact .inl (execRnd_mem h)
  | ret => obtain rfl := Host.Outcome.next.inj h; exact .inl (popAndJump_mem s)
  | call nnn => obtain rfl := Host.Outcome.next.inj h; exact .inl (pushAndJump_mem _ s)
  | seImm _ _ | sneImm _ _ | seReg _ _ | sneReg _ _ | skp _ | sknp _ =>
    obtain rfl := Host.Outcome.next.inj h; exact .inl (skipIf_mem _ s)
  | addReg x _ => obtain rfl := Host.Outcome.next.inj h; exact .inl (writeLatched_mem s x _ _)
  | sub x _ | subn x _ | shr x | shl x =>
    obtain rfl := Host.Outcome.next.inj h; exact .inl (writeInOrder_mem s x _ _ _)
  | _ => obtain rfl := Host.Outcome.next.inj h; exact .inl rfl

/-- Settles O41: memory by the two stores, the framebuffer by its frame. -/
theorem memoryAndScreenHaveTheirOwnWriters : Obligations.MemoryAndScreenHaveTheirOwnWriters := fun _ _ _ h =>
  ⟨fun hne => ((exec_mem h).resolve_left hne).1, fun hne => eq_of_fb_written (not_imp_comm.1 (exec_sameExcept h).fb hne)⟩

/-! ### The stack (R16, R17) -/

theorem popAndJump_sp {s : State} (hne : (popAndJump s).sp ≠ s.sp) : (popAndJump s).sp.val + 1 = s.sp.val := by
  by_cases h : 0 < s.sp.val
  · rw [popAndJump_of_held h]
    exact Nat.sub_add_cancel h
  · exact absurd (congrArg State.sp (popAndJump_of_empty (by omega))) hne

theorem pushAndJump_sp {s : State} (target : Word) (hne : (pushAndJump target s).sp ≠ s.sp) :
    (pushAndJump target s).sp.val = s.sp.val + 1 := by
  by_cases h : s.sp.val < 16
  · rw [pushAndJump_of_room target h]
    rfl
  · exact absurd (congrArg State.sp (pushAndJump_of_full target (by omega))) hne

/-- A push writes the slot that SP names and no other. -/
theorem pushAndJump_slot {s : State} (target : Word) {k : Fin 16} (hk : k.val ≠ s.sp.val) :
    (pushAndJump target s).stack[k.val] = s.stack[k.val] := by
  by_cases h : s.sp.val < 16
  · rw [pushAndJump_of_room target h]
    exact Vector.getElem_set_ne h _ hk.symm
  · rw [pushAndJump_of_full target (by omega)]

/-- Settles O42: the frame leaves RET and CALL, and each of them moves SP by one. -/
theorem stackIsWrittenByCallOnly : Obligations.StackIsWrittenByCallOnly := by
  intro i s t h
  have hframe := exec_sameExcept h
  refine ⟨fun hne => ?pointer, fun k hne => ?slot⟩
  case pointer =>
    rcases eq_of_sp_written (not_imp_comm.1 hframe.sp hne) with rfl | ⟨nnn, rfl⟩
    · obtain rfl := Host.Outcome.next.inj h
      exact .inl ⟨rfl, popAndJump_sp hne⟩
    · obtain rfl := Host.Outcome.next.inj h
      exact .inr ⟨nnn, rfl, pushAndJump_sp _ hne⟩
  case slot =>
    obtain ⟨nnn, rfl⟩ := eq_of_stack_written (not_imp_comm.1 hframe.stack fun heq => hne (by rw [heq]))
    obtain rfl := Host.Outcome.next.inj h
    exact ⟨not_imp_comm.1 (pushAndJump_slot _) hne, nnn, rfl⟩

/-! ### The canonical form of memory (log 4) -/

/-- Settles O47: the reset memory lists no byte. -/
theorem resetMeetsTheInvariant : Obligations.ResetMeetsTheInvariant := by
  unfold Obligations.ResetMeetsTheInvariant StateInv
  decide

theorem exec_stateInv {i : Instr} {s t : State} (hs : StateInv s) (h : exec i s = .next t) : StateInv t := by
  rcases exec_mem h with hmem | ⟨-, base, bytes, len, rfl⟩
  · exact (congrArg Memory.wf hmem).trans hs
  · exact storeBytes_wf hs base bytes len

theorem fontMemory_wf (font : Vector Byte 80) : (fontMemory font).wf = true :=
  Memory.wf_writeList rfl 0x050 _ (by rw [Vector.length_toList]; decide)

/-- What `load_program` does to the state, a rejected payload included (R148; log 11). -/
theorem perform_loadProgram (bytes : List Byte) (s : State) :
    perform (.loadProgram bytes) s =
      .next (if bytes.length ≤ 3584 then s.setMem (s.mem.writeList 0x200 bytes) else s) := by
  by_cases h : bytes.length ≤ 3584
  · simp [perform, loadProgram, h, Nat.not_lt.2 h]
  · simp [perform, loadProgram, h, Nat.lt_of_not_le h]

theorem perform_setKey_of_lt {index : Nat} (hk : index < 16) (pressed : Bool) (s : State) :
    perform (.setKey index pressed) s = .next (s.setKey ⟨index, hk⟩ pressed) := by
  simp [perform, setKeyAt, hk]

theorem perform_setKey_of_not_lt {index : Nat} (hk : ¬ index < 16) (pressed : Bool) (s : State) :
    perform (.setKey index pressed) s = .refused (.keyIndexOutsideContract index) := by
  simp [perform, setKeyAt, hk]

theorem perform_stateInv {op : Operation} {s t : State} (hs : StateInv s) (h : perform op s = .next t) : StateInv t := by
  cases op with
  | initializeMachine => obtain rfl := Host.Outcome.next.inj h; exact fontMemory_wf s.config.font
  | loadProgram bytes =>
    rw [perform_loadProgram] at h
    obtain rfl := Host.Outcome.next.inj h
    split
    · exact Memory.wf_writeList hs _ _ (by omega)
    · exact hs
  | runCycle => exact exec_stateInv (s := advance s) hs (runCycle_next h).2
  | tickTimers | framebufferView => obtain rfl := Host.Outcome.next.inj h; exact hs
  | setKey index pressed =>
    by_cases hk : index < 16
    · rw [perform_setKey_of_lt hk] at h
      obtain rfl := Host.Outcome.next.inj h; exact hs
    · rw [perform_setKey_of_not_lt hk] at h
      cases h

/-- Settles O48: a step is one operation, and each operation leaves memory alone, stores bytes below 4096 or writes the font. -/
theorem everyStepKeepsTheInvariant : Obligations.EveryStepKeepsTheInvariant := by
  intro s t hs h
  cases hsched : s.schedule with
  | nil =>
    rw [step_eq_runCycle hsched] at h
    exact perform_stateInv (op := .runCycle) hs h
  | cons op rest =>
    rw [step_eq_perform hsched] at h
    exact perform_stateInv (s := s.setSchedule rest) hs h

end Sys2Proof.Proofs.Frames
end

section
/-!
PROOFS about what cannot be observed: stack slots at or above SP (R17, D12) and the sound timer (R19, R134).
-/
namespace Sys2Proof.Proofs.Noninterference
open Sys2Proof Sys2Proof.Machine Sys2Proof.Claims
open Sys2Proof.Proofs.Frames

/-! ### Outcomes that are related -/

theorem sameOutcome_mapNext {rel : State → State → Prop} {f : State → State} {o : Host.Outcome State Fault Refusal}
    (h : ∀ t, o = .next t → rel t (f t)) : SameOutcome rel o (mapNext f o) := by
  cases o with
  | next t => exact h t rfl
  | fault _ | refused _ => rfl

/-- A cycle from two states that fetch alike is as related as the instruction's two outcomes. -/
theorem sameOutcome_runCycle {rel : State → State → Prop} {s s' : State} (hpc : s'.pc = s.pc) (hmem : s'.mem = s.mem)
    (hconfig : s'.config = s.config) (h : ∀ i, SameOutcome rel (exec i (advance s)) (exec i (advance s'))) :
    SameOutcome rel (runCycle s) (runCycle s') := by
  have hfault : fetchFault s' = fetchFault s := by
    unfold fetchFault
    rw [accessFault_congr hconfig, hpc]
  have hword : fetchWord s' = fetchWord s := by
    unfold fetchWord State.byteAt
    rw [hpc, hmem]
  unfold runCycle
  rw [hfault, hword]
  cases fetchFault s with
  | some f => rfl
  | none => exact h _

/-- A step is as related as the operations it can perform. -/
theorem sameOutcome_step {rel : State → State → Prop} {s s' : State} (hsched : s'.schedule = s.schedule)
    (h : ∀ op rest, SameOutcome rel (perform op (s.setSchedule rest)) (perform op (s'.setSchedule rest))) :
    SameOutcome rel (step s) (step s') := by
  cases hs : s.schedule with
  | nil =>
    rw [step_eq_runCycle hs, step_eq_runCycle (hsched.trans hs)]
    have hcycle := h .runCycle s.schedule
    rwa [show s'.setSchedule s.schedule = s' from congrArg s'.setSchedule hsched.symm] at hcycle
  | cons op rest =>
    rw [step_eq_perform hs, step_eq_perform (hsched.trans hs)]
    exact h op rest

/-! ### The stack and the sound timer, replaced -/

/-- The state with other stack slots and another sound timer. -/
def withHidden (stack : Vector Word 16) (st : Byte) (s : State) : State := { s with stack := stack, st := st }

section withHidden
variable (stack : Vector Word 16) (st : Byte) (s : State)

theorem storeBytes_withHidden (base : Nat) (bytes : Nat → Byte) (len : Nat) :
    storeBytes (withHidden stack st s) base bytes len = withHidden stack st (storeBytes s base bytes len) := by
  induction len with
  | zero => rfl
  | succ n ih => rw [storeBytes, ih]; rfl

theorem loadRegs_withHidden (base len : Nat) :
    loadRegs (withHidden stack st s) base len = withHidden stack st (loadRegs s base len) := by
  induction len with
  | zero => rfl
  | succ n ih => rw [loadRegs, ih]; rfl

theorem firstPressed_withHidden (n : Nat) : firstPressed (withHidden stack st s) n = firstPressed s n := by
  induction n with
  | zero => rfl
  | succ n ih => rw [firstPressed, ih]; rfl

theorem skipIf_withHidden (cond : Bool) : skipIf cond (withHidden stack st s) = withHidden stack st (skipIf cond s) := by
  cases cond <;> rfl

theorem writeLatched_withHidden (x : Reg) (flag result : Byte) :
    writeLatched (withHidden stack st s) x flag result = withHidden stack st (writeLatched s x flag result) := by
  unfold writeLatched
  rw [show (withHidden stack st s).config = s.config from rfl]
  cases s.config.aluAlias <;> rfl

theorem writeInOrder_withHidden (x y : Reg) (flag result : Byte → Byte → Byte) :
    writeInOrder (withHidden stack st s) x y flag result = withHidden stack st (writeInOrder s x y flag result) := by
  unfold writeInOrder
  rw [show (withHidden stack st s).config = s.config from rfl, writeLatched_withHidden]
  cases s.config.aluAlias <;> rfl

theorem checkedAccess_withHidden (kind : AccessKind) (base len : Nat) {run : State → State}
    (h : run (withHidden stack st s) = withHidden stack st (run s)) :
    checkedAccess (withHidden stack st s) kind base len run = mapNext (withHidden stack st) (checkedAccess s kind base len run) := by
  unfold checkedAccess
  rw [accessFault_congr (show (withHidden stack st s).config = s.config from rfl), h]
  cases accessFault s kind base len <;> rfl

theorem execLdVxK_withHidden (x : Reg) :
    execLdVxK x (withHidden stack st s) = mapNext (withHidden stack st) (execLdVxK x s) := by
  unfold execLdVxK
  rw [firstPressed_withHidden]
  cases firstPressed s 16 <;> rfl

/-- An instruction that writes neither SP nor ST reads neither the stack nor ST. -/
theorem exec_withHidden {i : Instr} (hsp : Part.sp ∉ writtenParts i) (hst : Part.st ∉ writtenParts i) :
    exec i (withHidden stack st s) = mapNext (withHidden stack st) (exec i s) := by
  cases i with
  | ret | call _ => exact absurd (by simp [writtenParts]) hsp
  | ldStVx x => exact absurd (by simp [writtenParts]) hst
  | drw x y n => exact checkedAccess_withHidden stack st s .dataRead s.i.toNat n.val (run := drawSprite x y n.val) rfl
  | ldB x =>
    exact checkedAccess_withHidden stack st s .dataWrite s.i.toNat 3
      (run := fun s => storeBytes s s.i.toNat (bcdDigit (s.reg x)) 3) (storeBytes_withHidden stack st s _ _ _)
  | ldMemVx x =>
    exact checkedAccess_withHidden stack st s .dataWrite s.i.toNat (x.val + 1)
      (run := fun s => storeBytes s s.i.toNat (fun k => s.reg (Fin.ofNat 16 k)) (x.val + 1)) (storeBytes_withHidden stack st s _ _ _)
  | ldVxMem x =>
    exact checkedAccess_withHidden stack st s .dataRead s.i.toNat (x.val + 1)
      (run := fun s => loadRegs s s.i.toNat (x.val + 1)) (loadRegs_withHidden stack st s _ _)
  | ldVxK x => exact execLdVxK_withHidden stack st s x
  | rnd x kk =>
    simp only [exec, execRnd, show (withHidden stack st s).config = s.config from rfl]
    cases s.config.cxkk <;> rfl
  | addReg x y => exact congrArg Host.Outcome.next (writeLatched_withHidden stack st s _ _ _)
  | sub x _ | subn x _ | shr x | shl x => exact congrArg Host.Outcome.next (writeInOrder_withHidden stack st s _ _ _ _)
  | seImm _ _ | sneImm _ _ | seReg _ _ | sneReg _ _ | skp _ | sknp _ =>
    exact congrArg Host.Outcome.next (skipIf_withHidden stack st s _)
  | _ => rfl

end withHidden

/-- Only an instruction that moves SP writes the stack. -/
theorem exec_stack {i : Instr} {s t : State} (hsp : Part.sp ∉ writtenParts i) (h : exec i s = .next t) : t.stack = s.stack := by
  refine (exec_sameExcept h).stack fun hstack => hsp ?_
  obtain ⟨nnn, rfl⟩ := eq_of_stack_written hstack
  simp [writtenParts]

/-! ### The sound timer -/

theorem popAndJump_setSt (s : State) (b : Byte) : popAndJump (s.setSt b) = (popAndJump s).setSt b := by
  by_cases h : 0 < s.sp.val
  · rw [popAndJump_of_held (s := s) h, popAndJump_of_held (s := s.setSt b) h]
    rfl
  · have h : s.sp.val = 0 := by omega
    rw [popAndJump_of_empty (s := s) h, popAndJump_of_empty (s := s.setSt b) h]

theorem pushAndJump_setSt (target : Word) (s : State) (b : Byte) :
    pushAndJump target (s.setSt b) = (pushAndJump target s).setSt b := by
  by_cases h : s.sp.val < 16
  · rw [pushAndJump_of_room (s := s) target h, pushAndJump_of_room (s := s.setSt b) target h]
    rfl
  · have h : s.sp.val = 16 := by omega
    rw [pushAndJump_of_full (s := s) target h, pushAndJump_of_full (s := s.setSt b) target h]

theorem exec_sameButSoundTimer (i : Instr) (s : State) (b : Byte) :
    SameOutcome SameButSoundTimer (exec i s) (exec i (s.setSt b)) := by
  by_cases hsp : Part.sp ∈ writtenParts i
  · rcases eq_of_sp_written hsp with rfl | ⟨nnn, rfl⟩
    · change SameButSoundTimer (popAndJump s) (popAndJump (s.setSt b))
      rw [popAndJump_setSt]
      rfl
    · change SameButSoundTimer (pushAndJump (zext12 nnn) s) (pushAndJump (zext12 nnn) (s.setSt b))
      rw [pushAndJump_setSt]
      rfl
  by_cases hst : Part.st ∈ writtenParts i
  · obtain ⟨x, rfl⟩ := eq_of_st_written hst
    rfl
  rw [show s.setSt b = withHidden s.stack b s from rfl, exec_withHidden _ _ _ hsp hst]
  refine sameOutcome_mapNext fun t ht => ?_
  rw [← exec_stack hsp ht]
  rfl

theorem perform_sameButSoundTimer (op : Operation) (s : State) (b : Byte) :
    SameOutcome SameButSoundTimer (perform op s) (perform op (s.setSt b)) := by
  cases op with
  | runCycle => exact sameOutcome_runCycle rfl rfl rfl fun i => exec_sameButSoundTimer i (advance s) b
  | loadProgram bytes =>
    rw [perform_loadProgram, perform_loadProgram]
    split <;> rfl
  | setKey index pressed =>
    by_cases hk : index < 16
    · rw [perform_setKey_of_lt hk, perform_setKey_of_lt hk]; rfl
    · rw [perform_setKey_of_not_lt hk, perform_setKey_of_not_lt hk]; rfl
  | initializeMachine | tickTimers | framebufferView => rfl

/-- Settles O56: LD ST writes a register's value whatever ST was, a tick writes ST alone, and nothing else reads or writes ST. -/
theorem soundTimerFlowsOnlyIntoItself : Obligations.SoundTimerFlowsOnlyIntoItself := by
  intro s s' h
  rw [show s' = s.setSt s'.st from h]
  exact sameOutcome_step rfl fun op rest => perform_sameButSoundTimer op (s.setSchedule rest) s'.st

/-! ### Stale stack slots -/

/-- The state with another stack. -/
def withStack (stack : Vector Word 16) (s : State) : State := { s with stack := stack }

/-- The two stacks agree below `SP`. -/
def AgreeBelow (sp : Nat) (stack stack' : Vector Word 16) : Prop := ∀ k : Fin 16, k.val < sp → stack'[k.val] = stack[k.val]

theorem sameButStaleSlots_withStack {s : State} {stack : Vector Word 16} (h : AgreeBelow s.sp.val s.stack stack) :
    SameButStaleSlots s (withStack stack s) := ⟨rfl, h⟩

theorem popAndJump_staleSlots {s : State} {stack : Vector Word 16} (h : AgreeBelow s.sp.val s.stack stack) :
    SameButStaleSlots (popAndJump s) (popAndJump (withStack stack s)) := by
  by_cases hsp : 0 < s.sp.val
  · have htop : stack[s.sp.val - 1] = s.stack[s.sp.val - 1] := h ⟨s.sp.val - 1, by omega⟩ (Nat.sub_lt hsp Nat.one_pos)
    rw [popAndJump_of_held (s := s) hsp, popAndJump_of_held (s := withStack stack s) hsp]
    refine ⟨?_, fun k hk => h k (Nat.lt_of_lt_of_le hk (Nat.sub_le _ _))⟩
    simp only [withStack, htop]
    rfl
  · have hsp : s.sp.val = 0 := by omega
    rw [popAndJump_of_empty (s := s) hsp, popAndJump_of_empty (s := withStack stack s) hsp]
    exact sameButStaleSlots_withStack h

theorem pushAndJump_staleSlots {s : State} {stack : Vector Word 16} (target : Word) (h : AgreeBelow s.sp.val s.stack stack) :
    SameButStaleSlots (pushAndJump target s) (pushAndJump target (withStack stack s)) := by
  by_cases hsp : s.sp.val < 16
  · rw [pushAndJump_of_room (s := s) target hsp, pushAndJump_of_room (s := withStack stack s) target hsp]
    refine ⟨rfl, fun k hk => ?_⟩
    change (stack.set s.sp.val s.pc)[k.val] = (s.stack.set s.sp.val s.pc)[k.val]
    have hk : k.val < s.sp.val + 1 := hk
    by_cases htop : s.sp.val = k.val
    · simp [htop]
    · rw [Vector.getElem_set_ne _ _ htop, Vector.getElem_set_ne _ _ htop]
      exact h k (by omega)
  · have hsp : s.sp.val = 16 := by omega
    rw [pushAndJump_of_full (s := s) target hsp, pushAndJump_of_full (s := withStack stack s) target hsp]
    exact sameButStaleSlots_withStack h

theorem exec_staleSlots (i : Instr) {s : State} {stack : Vector Word 16} (h : AgreeBelow s.sp.val s.stack stack) :
    SameOutcome SameButStaleSlots (exec i s) (exec i (withStack stack s)) := by
  by_cases hsp : Part.sp ∈ writtenParts i
  · rcases eq_of_sp_written hsp with rfl | ⟨nnn, rfl⟩
    · exact popAndJump_staleSlots h
    · exact pushAndJump_staleSlots (zext12 nnn) h
  by_cases hst : Part.st ∈ writtenParts i
  · obtain ⟨x, rfl⟩ := eq_of_st_written hst
    exact sameButStaleSlots_withStack (s := s.setSt (s.reg x)) h
  rw [show withStack stack s = withHidden stack s.st s from rfl, exec_withHidden _ _ _ hsp hst]
  refine sameOutcome_mapNext fun t ht => ?_
  have hframe := exec_sameExcept ht
  rw [← hframe.st hst]
  exact sameButStaleSlots_withStack (by rwa [exec_stack hsp ht, hframe.sp hsp])

theorem perform_staleSlots (op : Operation) {s : State} {stack : Vector Word 16} (h : AgreeBelow s.sp.val s.stack stack) :
    SameOutcome SameButStaleSlots (perform op s) (perform op (withStack stack s)) := by
  cases op with
  | runCycle => exact sameOutcome_runCycle rfl rfl rfl fun i => exec_staleSlots i (s := advance s) h
  | loadProgram bytes =>
    rw [perform_loadProgram, perform_loadProgram]
    split
    all_goals exact ⟨rfl, h⟩
  | setKey index pressed =>
    by_cases hk : index < 16
    · rw [perform_setKey_of_lt hk, perform_setKey_of_lt hk]; exact ⟨rfl, h⟩
    · rw [perform_setKey_of_not_lt hk, perform_setKey_of_not_lt hk]; rfl
  | initializeMachine => exact ⟨rfl, fun _ _ => rfl⟩
  | tickTimers | framebufferView => exact ⟨rfl, h⟩

/-- Settles O55: RET reads a slot below SP and lowers SP, CALL writes the slot that SP then covers, and nothing else reads the stack. -/
theorem staleStackSlotsAreUnobservable : Obligations.StaleStackSlotsAreUnobservable := by
  intro s s' h
  obtain ⟨hs', hbelow⟩ := h
  rw [show s' = withStack s'.stack s from hs']
  exact sameOutcome_step rfl fun op rest => perform_staleSlots op (s := s.setSchedule rest) hbelow

end Sys2Proof.Proofs.Noninterference
end

section
/-!
PROOFS about the cycle: the fetch and what it runs (R34, R60 to R66), the jump to itself (R71), faults (R33, R124, R128), and a word
placed from outside (log 13).
-/
namespace Sys2Proof.Proofs.Cycle
open Sys2Proof Sys2Proof.Machine Sys2Proof.Claims
open Sys2Proof.Proofs.Encoding Sys2Proof.Proofs.Frames

/-! ### The fetch (R34, R60 to R62) -/

/-- The state in which the instruction of a cycle runs: `PC` advanced, and `rest` still to perform. -/
def afterFetch (s : State) (rest : List Operation) : State := { s with pc := s.pc + 2, schedule := rest }

/-- A cycle whose fetch is in range runs the word at `PC`. -/
theorem step_of_inRange {s : State} {rest : List Operation} (hnext : CycleIsNext s rest) (hrange : InRange s s.pc.toNat 2) :
    step s = exec (decode (fetchWord s)) (afterFetch s rest) := by
  rw [step_of_cycleIsNext hnext]
  exact runCycle_of_inRange (s := s.setSchedule rest) hrange

theorem fetchWord_toNat (s : State) :
    (fetchWord s).toNat = (s.byteAt s.pc.toNat).toNat * 256 + (s.byteAt (s.pc.toNat + 1)).toNat :=
  wordOfBytes_toNat _ _

theorem fetchWord_toNat_of_wordAtPc {s : State} {w : Nat} (h : WordAtPc s w) : (fetchWord s).toNat = w := by
  obtain ⟨-, hhigh, hlow⟩ := h
  rw [fetchWord_toNat, hhigh, hlow, Nat.div_add_mod']

theorem fetchWord_of_wordAtPc {s : State} {w : Nat} (h : WordAtPc s w) : fetchWord s = BitVec.ofNat 16 w := by
  rw [← fetchWord_toNat_of_wordAtPc h, BitVec.ofNat_toNat, BitVec.setWidth_eq]

theorem step_of_wordAtPc {s : State} {rest : List Operation} {w : Nat} (hnext : CycleIsNext s rest) (h : WordAtPc s w) :
    step s = exec (decode (BitVec.ofNat 16 w)) (afterFetch s rest) := by
  rw [step_of_inRange hnext h.1, fetchWord_of_wordAtPc h]

/-- Settles O6: the two bytes are the word fetched, and every decoded instruction is well formed. -/
theorem stepRunsDecodedInstruction : Obligations.StepRunsDecodedInstruction := by
  refine ⟨fun s rest i hnext hrange hdecode => ?_, fun s rest w hnext h => step_of_wordAtPc hnext h⟩
  obtain rfl : decode (fetchWord s) = i := congrArg Prod.fst (Except.ok.inj hdecode)
  exact ⟨(standsFor_decode _).1, step_of_inRange hnext hrange⟩

/-- Settles O7: a fetch above 0xFFE is out of range on a faulting machine. -/
theorem fetchOutsideMemoryFaults : Obligations.FetchOutsideMemoryFaults := by
  intro s rest hnext hfault hpc
  have hrange : ¬ InRange (s.setSchedule rest) s.pc.toNat 2 := by
    unfold InRange
    rw [setSchedule_config, hfault]
    simp only [reduceCtorEq, false_or]
    omega
  rw [step_of_cycleIsNext hnext]
  exact runCycle_of_not_inRange hrange

theorem exec_of_unmatchedWord {op : Word} (h : UnmatchedWord op.toNat) (s : State) : exec (decode op) s = .next s := by
  rcases (decode_ignored_iff op).2 h with ⟨nnn, hi⟩ | ⟨w, hi⟩ <;> rw [hi] <;> rfl

/-- Settles O9: the two catch-alls answer the state they are given, and a cycle gives them the advanced one. -/
theorem ignoredWordsOnlyAdvance : Obligations.IgnoredWordsOnlyAdvance := by
  refine ⟨fun _ _ => rfl, fun _ _ => rfl, fun s rest w hw hnext h => ?_⟩
  rw [step_of_inRange hnext h.1]
  exact exec_of_unmatchedWord ((fetchWord_toNat_of_wordAtPc h).symm ▸ hw) (afterFetch s rest)

/-! ### A jump to itself (R71) -/

theorem encode_jp {a : Nat} (h : a < 4096) : BitVec.ofNat 16 (0x1000 + a) = encode (.jp (BitVec.ofNat 12 a)) := by
  apply BitVec.eq_of_toNat_eq
  rw [encode, fmtNNN_toNat, BitVec.toNat_ofNat, BitVec.toNat_ofNat, Nat.mod_eq_of_lt (show a < 2 ^ 12 from h)]
  exact Nat.mod_eq_of_lt (by omega)

theorem decode_selfJump {s : State} (h : s.pc.toNat < 4096) :
    ∃ nnn, decode (BitVec.ofNat 16 (0x1000 + s.pc.toNat)) = .jp nnn ∧ zext12 nnn = s.pc := by
  refine ⟨BitVec.ofNat 12 s.pc.toNat, ?_, BitVec.eq_of_toNat_eq ?_⟩
  · rw [encode_jp h]
    exact decodeAfterEncode (.jp _) rfl
  · rw [ControlFlow.zext12_toNat, BitVec.toNat_ofNat, Nat.mod_eq_of_lt (show _ < 2 ^ 12 from h)]

/-- The jump writes the `PC` that the cycle began with. -/
theorem runCycle_selfJump {s : State} (hpc : s.pc.toNat < 4096) (hword : WordAtPc s (0x1000 + s.pc.toNat)) : runCycle s = .next s := by
  obtain ⟨nnn, hdecode, htarget⟩ := decode_selfJump hpc
  rw [runCycle_of_inRange hword.1, fetchWord_of_wordAtPc hword, hdecode]
  change Host.Outcome.next ((advance s).setPc (zext12 nnn)) = _
  rw [htarget]
  rfl

/-- Settles O46: the cycle answers the state as it stood, with the operation done. -/
theorem selfJumpIsAFixedPoint : Obligations.SelfJumpIsAFixedPoint := by
  intro s rest hpc hnext hword
  rw [step_of_cycleIsNext hnext]
  exact runCycle_selfJump (s := s.setSchedule rest) hpc hword

/-! ### Faults (R124, R128) -/

theorem exec_eq_checkedAccess {i : Instr} {s : State} {kind : AccessKind} {base len : Nat}
    (h : dataAccess i s = some (kind, base, len)) : ∃ run, exec i s = checkedAccess s kind base len run := by
  cases i with
  | ldB x => cases h; exact ⟨_, show execLdB x s = _ from rfl⟩
  | ldMemVx x => cases h; exact ⟨_, show execLdMemVx x s = _ from rfl⟩
  | ldVxMem x => cases h; exact ⟨_, show execLdVxMem x s = _ from rfl⟩
  | drw x y n => cases h; exact ⟨_, show execDrw x y n s = _ from rfl⟩
  | _ => cases h

theorem exec_next_of_no_access {i : Instr} {s : State} (h : dataAccess i s = none) : ∃ t, exec i s = .next t := by
  cases i with
  | ldB x | ldMemVx x | ldVxMem x => cases h
  | drw x y n => cases h
  | ldVxK x =>
    change ∃ t, execLdVxK x s = .next t
    unfold execLdVxK
    split <;> exact ⟨_, rfl⟩
  | rnd x kk =>
    change ∃ t, execRnd x kk s = .next t
    unfold execRnd
    split <;> exact ⟨_, rfl⟩
  | _ => exact ⟨_, rfl⟩

theorem exec_next_of_inRange {i : Instr} {s : State}
    (h : ∀ kind base len, dataAccess i s = some (kind, base, len) → InRange s base len) : ∃ t, exec i s = .next t := by
  cases haccess : dataAccess i s with
  | none => exact exec_next_of_no_access haccess
  | some access =>
    obtain ⟨run, hexec⟩ := exec_eq_checkedAccess haccess
    exact ⟨run s, hexec.trans (checkedAccess_of_inRange run (h _ _ _ haccess))⟩

/-- Settles O38: an instruction with a data access is one checked access, and any other one answers next. -/
theorem instructionFaultsExactlyOutOfRange : Obligations.InstructionFaultsExactlyOutOfRange := by
  refine fun i s => ⟨fun kind base len haccess hrange => ?_, exec_next_of_inRange⟩
  obtain ⟨run, hexec⟩ := exec_eq_checkedAccess haccess
  exact hexec.trans (checkedAccess_of_not_inRange run hrange)

/-- Settles O39: on a wrapping machine every access is in range, and no instruction writes the schedule. -/
theorem wrappingMachineAlwaysSteps : Obligations.WrappingMachineAlwaysSteps := by
  intro s rest hwrap hnext
  obtain ⟨t, ht⟩ := exec_next_of_inRange (i := decode (fetchWord s)) (s := afterFetch s rest) fun _ _ _ _ => .inl hwrap
  exact ⟨t, (step_of_inRange hnext (.inl hwrap)).trans ht, (exec_sameExcept ht).schedule (schedule_not_written _)⟩

/-! ### A word placed from outside (log 13) -/

theorem tableWord_16 {w : Nat} (h : w < 65536) : tableWord 16 w = BitVec.ofNat 16 w := by
  rw [tableWord, Nat.mod_eq_of_lt (show w < 2 ^ min 16 16 from h)]

theorem inRange_fetchPlace (s : State) : InRange s (fetchPlace s).toNat 2 := by
  unfold fetchPlace
  split
  · exact .inr (.inr (by decide))
  · next h => exact accessFault_eq_none.1 (Option.not_isSome_iff_eq_none.1 h)

theorem fetchPlace_of_inRange {s : State} (h : InRange s s.pc.toNat 2) : fetchPlace s = s.pc := by
  simp [fetchPlace, fetchFault, accessFault_eq_none.2 h]

theorem cellOf_ne_succ (a : Nat) : cellOf a ≠ cellOf (a + 1) := cellOf_add_ne (j := 0) Nat.zero_lt_one (by decide)

theorem placeWord_pc (s : State) (op : Word) : (placeWord s op).pc = fetchPlace s := rfl

theorem placeWord_high {s : State} (hs : StateInv s) (op : Word) :
    (placeWord s op).byteAt (fetchPlace s).toNat = (bytesOfWord op).1 := by
  have hplaced : ((s.setSchedule []).setPc (fetchPlace s)).mem.wf = true := hs
  simp only [placeWord]
  rw [setByte_byteAt (setByte_wf hplaced _ _), if_neg (cellOf_ne_succ _), setByte_byteAt hplaced, if_pos rfl]

theorem placeWord_low {s : State} (hs : StateInv s) (op : Word) :
    (placeWord s op).byteAt ((fetchPlace s).toNat + 1) = (bytesOfWord op).2 := by
  have hplaced : ((s.setSchedule []).setPc (fetchPlace s)).mem.wf = true := hs
  simp only [placeWord]
  rw [setByte_byteAt (setByte_wf hplaced _ _), if_pos rfl]

theorem wordAtPc_placeWord {s : State} (hs : StateInv s) (op : Word) : WordAtPc (placeWord s op) op.toNat := by
  refine ⟨inRange_fetchPlace s, ?_, ?_⟩ <;> rw [placeWord_pc]
  · rw [placeWord_high hs, bytesOfWord, field_toNat]
    have := op.isLt
    omega
  · rw [placeWord_low hs, bytesOfWord, field_toNat]
    omega

theorem sameExcept_placeWord (s : State) (op : Word) :
    SameExcept [] [.pc, .schedule] (cellsOf (fetchPlace s).toNat 2) s (placeWord s op) := by
  simp only [placeWord]
  constructor
  case mem =>
    intro a ha
    have hhigh : a ≠ cellOf (fetchPlace s).toNat := not_mem_cellsOf.1 ha 0 (by decide)
    have hlow : a ≠ cellOf ((fetchPlace s).toNat + 1) := not_mem_cellsOf.1 ha 1 (by decide)
    rw [setByte_mem, Memory.read_write_ne _ _ hlow, setByte_mem, Memory.read_write_ne _ _ hhigh]
    rfl
  all_goals simp

/-- Settles O8: the two bytes placed are read back, and the place is the `PC` of the state, in range for its fetch. -/
theorem placedWordRunsNext : Obligations.PlacedWordRunsNext := by
  intro s w hs hw
  simp only [State.withFetchWord, tableWord_16 hw]
  have hword : WordAtPc (placeWord s (BitVec.ofNat 16 w)) w := by
    simpa [Nat.mod_eq_of_lt hw] using wordAtPc_placeWord hs (BitVec.ofNat 16 w)
  exact ⟨rfl, hword, step_of_wordAtPc (.inl ⟨rfl, rfl⟩) hword, sameExcept_placeWord s _, fetchPlace_of_inRange⟩

end Sys2Proof.Proofs.Cycle
end

section
/-!
PROOFS about where `PC` goes (R13, R67 (b), R70 to R78, R106, R107, R109).
-/
namespace Sys2Proof.Proofs.ProgramCounter
open Sys2Proof Sys2Proof.Machine Sys2Proof.Claims
open Sys2Proof.Proofs.Frames Sys2Proof.Proofs.Cycle

/-! ### The skips -/

/-- The condition of a skip (R73 to R76, R106, R107); none for an instruction that is no skip. -/
def skipCondition (i : Instr) (s : State) : Option Bool :=
  match i with
  | .seImm x kk => some (s.reg x == kk)
  | .sneImm x kk => some (s.reg x != kk)
  | .seReg x y => some (s.reg x == s.reg y)
  | .sneReg x y => some (s.reg x != s.reg y)
  | .skp x => some (keyOf s x)
  | .sknp x => some (!keyOf s x)
  | _ => none

theorem exec_of_skipCondition {i : Instr} {s : State} {cond : Bool} (h : skipCondition i s = some cond) :
    exec i s = .next (skipIf cond s) := by
  cases i with
  | seImm _ _ | sneImm _ _ | seReg _ _ | sneReg _ _ | skp _ | sknp _ => obtain rfl := Option.some.inj h; rfl
  | _ => cases h

theorem exists_key_iff (s : State) (x : Reg) (p : Bool → Prop) :
    (∃ k : Fin 16, k.val = (s.reg x).toNat % 16 ∧ p s.key[k.val]) ↔ p (keyOf s x) := by
  constructor
  · rintro ⟨k, hk, hp⟩
    rwa [KeypadTimers.keyOf_eq hk]
  · intro hp
    exact ⟨lowNibble (s.reg x), IndexMemory.lowNibble_val _, hp⟩

theorem skipTaken_iff (i : Instr) (s : State) : SkipTaken i s ↔ skipCondition i s = some true := by
  cases i with
  | skp x => simpa [SkipTaken, skipCondition] using exists_key_iff s x (· = true)
  | sknp x => simpa [SkipTaken, skipCondition] using exists_key_iff s x (· = false)
  | seImm x kk => simpa [SkipTaken, skipCondition] using eq_comm
  | _ => simp [SkipTaken, skipCondition]

/-! ### Every other writer of `PC` -/

theorem eq_of_pc_written {i : Instr} {s : State} (h : Part.pc ∈ writtenParts i) (hskip : skipCondition i s = none) :
    (∃ nnn, i = .jp nnn) ∨ (∃ nnn, i = .jpV0 nnn) ∨ (∃ nnn, i = .call nnn) ∨ i = .ret ∨ ∃ x, i = .ldVxK x := by
  cases i <;> simp_all [writtenParts, skipCondition]

theorem jpV0_target_toNat (b : Byte) (nnn : BitVec 12) : (zext8 b + zext12 nnn).toNat = b.toNat + nnn.toNat := by
  rw [BitVec.toNat_add, ControlFlow.zext12_toNat, zext8, BitVec.toNat_setWidth_of_le (by decide)]
  omega

theorem popAndJump_at_slot {s : State} {k : Fin 16} (h : s.sp.val = k.val + 1) :
    popAndJump s = (s.setSp k.castSucc).setPc s.stack[k.val] := by
  rw [popAndJump_of_held (by omega)]
  have hk : s.sp.val - 1 = k.val := by omega
  simp only [hk]
  rfl

theorem pc_of_transfersTo {i : Instr} {s t : State} {target : Nat} (h : exec i s = .next t) (htarget : TransfersTo i s target) :
    t.pc.toNat = target := by
  rcases htarget with ⟨nnn, rfl, rfl⟩ | ⟨nnn, rfl, hroom, rfl⟩ | ⟨nnn, rfl, rfl⟩ | ⟨k, rfl, hk, rfl⟩
  all_goals obtain rfl := Host.Outcome.next.inj h
  · exact ControlFlow.zext12_toNat nnn
  · rw [pushAndJump_of_room _ hroom]
    exact ControlFlow.zext12_toNat nnn
  · exact jpV0_target_toNat _ nnn
  · rw [popAndJump_at_slot hk]
    rfl

theorem pc_of_waitsForKey {i : Instr} {s t : State} (h : exec i s = .next t) (hwait : WaitsForKey i s) : t.pc = s.pc - 2 := by
  obtain ⟨⟨x, rfl⟩, hnone⟩ := hwait
  rw [KeypadTimers.exec_ldVxK_of_none_pressed x hnone] at h
  obtain rfl := Host.Outcome.next.inj h
  rfl

theorem pc_of_key_found {x : Reg} {s t : State} (h : exec (.ldVxK x) s = .next t) (hkey : ¬ WaitsForKey (.ldVxK x) s) :
    t.pc = s.pc := by
  cases hscan : firstPressed s 16 with
  | none =>
    have hspec := firstPressed_spec s (le_refl 16)
    rw [hscan] at hspec
    exact absurd ⟨⟨x, rfl⟩, fun j => hspec j j.isLt⟩ hkey
  | some k =>
    rw [KeypadTimers.exec_ldVxK] at h
    unfold execLdVxK at h
    rw [hscan] at h
    obtain rfl := Host.Outcome.next.inj h
    rfl

theorem pc_of_straight_on {i : Instr} {s t : State} (h : exec i s = .next t) (hskip : ¬ SkipTaken i s) (hwait : ¬ WaitsForKey i s)
    (htransfer : ∀ target, ¬ TransfersTo i s target) : t.pc = s.pc := by
  cases hcond : skipCondition i s with
  | some cond =>
    obtain rfl : cond = false := by
      rw [skipTaken_iff, hcond] at hskip
      simpa using hskip
    rw [exec_of_skipCondition hcond] at h
    obtain rfl := Host.Outcome.next.inj h
    rfl
  | none =>
    by_cases hpc : Part.pc ∈ writtenParts i
    · rcases eq_of_pc_written hpc hcond with ⟨nnn, rfl⟩ | ⟨nnn, rfl⟩ | ⟨nnn, rfl⟩ | rfl | ⟨x, rfl⟩
      · exact absurd (.inl ⟨nnn, rfl, rfl⟩) (htransfer _)
      · exact absurd (.inr (.inr (.inl ⟨nnn, rfl, rfl⟩))) (htransfer _)
      · obtain rfl := Host.Outcome.next.inj h
        have hfull : ¬ s.sp.val < 16 := fun hroom => htransfer _ (.inr (.inl ⟨nnn, rfl, hroom, rfl⟩))
        rw [pushAndJump_of_full _ (by omega)]
      · obtain rfl := Host.Outcome.next.inj h
        have hempty : ¬ 0 < s.sp.val := fun hheld =>
          htransfer _ (.inr (.inr (.inr ⟨⟨s.sp.val - 1, by omega⟩, rfl, (Nat.sub_add_cancel hheld).symm, rfl⟩)))
        rw [popAndJump_of_empty (by omega)]
      · exact pc_of_key_found h hwait
    · exact (exec_sameExcept h).pc hpc

/-- Settles O45: each clause by its own rule on the advanced `PC` that the instruction is given. -/
theorem nextPcIsOneOfTheListed : Obligations.NextPcIsOneOfTheListed := by
  intro s t rest w hnext hword h
  rw [step_of_wordAtPc hnext hword] at h
  refine ⟨fun htaken => ?skip, fun hwait => ?wait, fun target htarget => pc_of_transfersTo h htarget, fun hskip hwait htransfer =>
    pc_of_straight_on h hskip hwait htransfer⟩
  case skip =>
    rw [exec_of_skipCondition ((skipTaken_iff _ (afterFetch s rest)).1 htaken)] at h
    obtain rfl := Host.Outcome.next.inj h
    exact BitVec.add_assoc s.pc 2 2
  case wait => exact (pc_of_waitsForKey h hwait).trans (BitVec.add_sub_cancel s.pc 2)

/-! ### RET and the jumps (R70, R71, R78) -/

theorem sameExcept_setSp_setPc (s : State) (k : Fin 17) (w : Word) : SameExcept [] [.pc, .sp] [] s ((s.setSp k).setPc w) := by
  constructor <;> simp

/-- Settles O10: the two branches of the pop. -/
theorem returnPopsOrIsDropped : Obligations.ReturnPopsOrIsDropped := by
  refine fun s => ⟨popAndJump s, rfl, popAndJump_of_empty, fun k hk => ?_⟩
  rw [popAndJump_at_slot hk]
  exact ⟨rfl, rfl, sameExcept_setSp_setPc s _ _⟩

/-- Settles O11: each jump is one write of `PC`, and a byte and a 12-bit number never sum to 65536. -/
theorem jumpsSetPc : Obligations.JumpsSetPc := fun nnn s =>
  ⟨⟨_, rfl, ControlFlow.zext12_toNat nnn, ControlFlow.sameExcept_setPc s _⟩,
    ⟨_, rfl, jpV0_target_toNat (s.reg 0) nnn, ControlFlow.sameExcept_setPc s _⟩⟩

/-- A pop directly after a push is a write of the slot alone. -/
theorem popAndJump_push {s : State} {k : Fin 16} (target : Word) (hk : s.sp.val = k.val) :
    popAndJump (((s.setSlot k s.pc).setSp k.succ).setPc target) = s.setSlot k s.pc := by
  have hsp : k.castSucc = s.sp := Fin.ext hk.symm
  rw [popAndJump_at_slot (k := k) rfl, hsp]
  simp [State.setSlot, State.setSp, State.setPc]

theorem sameExcept_setSlot (s : State) (k : Fin 16) (w : Word) : SameExcept [] [.stack] [] s (s.setSlot k w) := by
  constructor <;> simp

/-- Settles O13: the push fills the slot that the pop reads. -/
theorem returnUndoesCall : Obligations.ReturnUndoesCall := by
  intro nnn s hroom
  have hk : s.sp.val = (⟨s.sp.val, hroom⟩ : Fin 16).val := rfl
  refine ⟨_, s.setSlot ⟨s.sp.val, hroom⟩ s.pc, rfl, ?_, rfl, rfl, sameExcept_setSlot s _ _⟩
  rw [ControlFlow.pushAndJump_at_slot _ hk]
  exact congrArg Host.Outcome.next (popAndJump_push _ hk)

end Sys2Proof.Proofs.ProgramCounter
end

section
/-!
PROOFS of the flag-writing instructions (R88 to R92) in every case of the annex to D9, and of RND (R93).
-/
namespace Sys2Proof.Proofs.FlagWriters
open Sys2Proof Sys2Proof.Machine Sys2Proof.Claims
open Sys2Proof.Proofs.Frames

/-! ### Flags and results as numbers (R81) -/

theorem flagByte_toNat (p : Prop) [Decidable p] : (flagByte (decide p)).toNat = bit01 p := by
  unfold flagByte bit01
  by_cases h : p <;> simp [h]

theorem carryFlag_toNat (a b : Byte) : (carryFlag a b).toNat = bit01 (a.toNat + b.toNat > 255) := flagByte_toNat _

theorem notBorrowFlag_toNat (a b : Byte) : (notBorrowFlag a b).toNat = bit01 (a.toNat ≥ b.toNat) := flagByte_toNat _

theorem sub_toNat (a b : Byte) : (a - b).toNat = diff8 a.toNat b.toNat := by
  rw [BitVec.toNat_sub, diff8, Nat.add_comm a.toNat, Nat.sub_add_comm b.isLt.le]

theorem lowBitFlag_toNat (a : Byte) : (lowBitFlag a).toNat = a.toNat % 2 := by
  rw [lowBitFlag, BitVec.toNat_and]
  exact Nat.and_one_is_mod _

theorem highBitFlag_toNat (a : Byte) : (highBitFlag a).toNat = a.toNat / 128 := by
  have hmod : (highBitFlag a).toNat = (a >>> 7).toNat % 2 := lowBitFlag_toNat (a >>> 7)
  rw [hmod, BitVec.toNat_ushiftRight, Nat.shiftRight_eq_div_pow]
  omega

theorem shiftRight_toNat (a : Byte) : (a >>> 1).toNat = a.toNat / 2 := by
  rw [BitVec.toNat_ushiftRight, Nat.shiftRight_eq_div_pow, Nat.pow_one]

theorem shiftLeft_toNat (a : Byte) : (a <<< 1).toNat = 2 * a.toNat % 256 := by
  rw [BitVec.toNat_shiftLeft, Nat.shiftLeft_eq, Nat.mul_comm]

/-! ### The two registers after the write of a flag and a result (D9 and its annex) -/

theorem writeLatched_reg_result (s : State) {x : Reg} (flag result : Byte) (hx : x ≠ vf) :
    (writeLatched s x flag result).reg x = result := by
  unfold writeLatched
  cases s.config.aluAlias <;> simp [setReg_reg, hx]

theorem writeLatched_reg_flag (s : State) {x : Reg} (flag result : Byte) (hx : x ≠ vf) :
    (writeLatched s x flag result).reg vf = flag := by
  unfold writeLatched
  cases s.config.aluAlias <;> simp [setReg_reg, hx.symm]

theorem writeLatched_reg_vf (s : State) (flag result : Byte) :
    (writeLatched s vf flag result).reg vf = if s.config.aluAlias = .latchedFlagLast then flag else result := by
  unfold writeLatched
  cases s.config.aluAlias <;> simp

theorem writeInOrder_reg_flag (s : State) {x : Reg} (y : Reg) (flag result : Byte → Byte → Byte) (hx : x ≠ vf) :
    (writeInOrder s x y flag result).reg vf = flag (s.reg x) (s.reg y) := by
  unfold writeInOrder
  cases s.config.aluAlias <;> simp [setReg_reg, hx.symm, writeLatched_reg_flag _ _ _ hx]

/-- The second statement reads the flag where VF is its second operand, under `sequential` only. -/
theorem writeInOrder_reg_result (s : State) {x : Reg} (y : Reg) (flag result : Byte → Byte → Byte) (hx : x ≠ vf) :
    (writeInOrder s x y flag result).reg x =
      result (s.reg x) (if s.config.aluAlias = .sequential ∧ y = vf then flag (s.reg x) (s.reg y) else s.reg y) := by
  unfold writeInOrder
  cases s.config.aluAlias <;> simp [setReg_reg, hx, writeLatched_reg_result _ _ _ hx]

theorem writeInOrder_reg_vf (s : State) (y : Reg) (flag result : Byte → Byte → Byte) :
    (writeInOrder s vf y flag result).reg vf = match s.config.aluAlias with
      | .sequential => result (flag (s.reg vf) (s.reg y)) (if y = vf then flag (s.reg vf) (s.reg y) else s.reg y)
      | .latchedResultLast => result (s.reg vf) (s.reg y)
      | .latchedFlagLast => flag (s.reg vf) (s.reg y) := by
  unfold writeInOrder
  cases h : s.config.aluAlias <;> simp [setReg_reg, writeLatched_reg_vf, h]

/-! ### ADD (R88) -/

/-- Settles O19: sum and carry are formed before either write, so only their order matters, and only where both go to VF. -/
theorem addWithCarry : Obligations.AddWithCarry := by
  intro x y s
  refine ⟨_, rfl, sameExcept_writeLatched s x _ _, fun hx => ⟨?sum, ?carry⟩, ?intoFlag⟩
  case sum => rw [writeLatched_reg_result s _ _ hx, BitVec.toNat_add]
  case carry => rw [writeLatched_reg_flag s _ _ hx, carryFlag_toNat]
  case intoFlag =>
    rintro rfl
    rw [writeLatched_reg_vf, apply_ite BitVec.toNat, carryFlag_toNat, BitVec.toNat_add]

/-! ### SUB and SUBN (R89, R90) -/

/-- The annex's table for an instruction that writes a not-borrow `f` and a difference. -/
theorem writeInOrder_difference (s : State) (x y : Reg) {flag result : Byte → Byte → Byte} {diff : Nat → Nat → Nat} {f : Nat}
    (hresult : ∀ a b, (result a b).toNat = diff a.toNat b.toNat) (hflag : (flag (s.reg x) (s.reg y)).toNat = f)
    (hself : ∀ a, diff a a = 0) (hone : x = y → f = 1) :
    let a := (s.reg x).toNat
    let b := (s.reg y).toNat
    let t := writeInOrder s x y flag result
    SameExcept [x, vf] [] [] s t ∧
      (x ≠ vf → y ≠ vf → (t.reg x).toNat = diff a b ∧ (t.reg vf).toNat = f) ∧
      (x ≠ vf → y = vf → (t.reg vf).toNat = f ∧
        (t.reg x).toNat = if s.config.aluAlias = .sequential then diff a f else diff a b) ∧
      (x = vf → y ≠ vf → (t.reg vf).toNat = match s.config.aluAlias with
        | .sequential => diff f b
        | .latchedResultLast => diff a b
        | .latchedFlagLast => f) ∧
      (x = vf → y = vf → (t.reg vf).toNat = bit01 (s.config.aluAlias = .latchedFlagLast)) := by
  intro a b t
  have hf : x ≠ vf → (t.reg vf).toNat = f := fun hx => by rw [writeInOrder_reg_flag s y flag result hx, hflag]
  refine ⟨sameExcept_writeInOrder s x y flag result, fun hx hy => ⟨?plain, hf hx⟩, fun hx hy => ⟨hf hx, ?fromFlag⟩, ?intoFlag, ?both⟩
  case plain => rw [writeInOrder_reg_result s y flag result hx, hresult, if_neg fun h => hy h.2]
  case fromFlag =>
    rw [writeInOrder_reg_result s y flag result hx, hresult, apply_ite BitVec.toNat, hflag]
    simp only [and_iff_left hy]
    exact apply_ite (diff a) (s.config.aluAlias = .sequential) f b
  case intoFlag =>
    rintro rfl hy
    rw [writeInOrder_reg_vf, if_neg hy]
    cases s.config.aluAlias
    case sequential => rw [hresult, hflag]
    case latchedResultLast => exact hresult _ _
    case latchedFlagLast => exact hflag
  case both =>
    rintro rfl rfl
    rw [writeInOrder_reg_vf, if_pos rfl]
    cases s.config.aluAlias
    case sequential => exact (hresult _ _).trans (hself _)
    case latchedResultLast => exact (hresult _ _).trans (hself _)
    case latchedFlagLast => exact hflag.trans (hone rfl)

theorem diff8_self (a : Nat) : diff8 a a = 0 := by
  rw [diff8, Nat.add_sub_cancel_left]

theorem bit01_of_true {p : Prop} [Decidable p] (h : p) : bit01 p = 1 := if_pos h

/-- Settles O20: the table of the annex, with the difference and the not-borrow as numbers. -/
theorem subtractWithNotBorrow : Obligations.SubtractWithNotBorrow := fun x y s =>
  ⟨_, rfl, writeInOrder_difference s x y sub_toNat (notBorrowFlag_toNat _ _) diff8_self fun hxy =>
    bit01_of_true (hxy ▸ le_refl _)⟩

/-- Settles O21: the same table with the operands of the difference exchanged. -/
theorem reverseSubtractWithNotBorrow : Obligations.ReverseSubtractWithNotBorrow := fun x y s =>
  ⟨_, rfl, writeInOrder_difference s x y (diff := fun a b => diff8 b a) (fun a b => sub_toNat b a) (notBorrowFlag_toNat _ _)
    diff8_self fun hxy => bit01_of_true (hxy ▸ le_refl _)⟩

/-! ### SHR and SHL (R91, R92) -/

/-- The annex's table for a shift, whose flag and result are both of the one operand. -/
theorem writeInOrder_shift (s : State) (x : Reg) {flag result : Byte → Byte} {bit shifted : Nat → Nat}
    (hresult : ∀ a, (result a).toNat = shifted a.toNat) (hflag : ∀ a, (flag a).toNat = bit a.toNat) :
    let a := (s.reg x).toNat
    let t := writeInOrder s x x (fun a _ => flag a) (fun a _ => result a)
    (x ≠ vf → (t.reg x).toNat = shifted a ∧ (t.reg vf).toNat = bit a) ∧
      (x = vf → (t.reg vf).toNat = match s.config.aluAlias with
        | .sequential => shifted (bit a)
        | .latchedResultLast => shifted a
        | .latchedFlagLast => bit a) := by
  refine ⟨fun hx => ⟨?result, ?bit⟩, ?intoFlag⟩
  case result => rw [writeInOrder_reg_result s x _ _ hx, hresult]
  case bit => rw [writeInOrder_reg_flag s x _ _ hx, hflag]
  case intoFlag =>
    rintro rfl
    rw [writeInOrder_reg_vf]
    cases s.config.aluAlias
    case sequential => exact (hresult _).trans (congrArg shifted (hflag _))
    case latchedResultLast => exact hresult _
    case latchedFlagLast => exact hflag _

/-- Settles O22: half of the flag itself is 0. -/
theorem shiftRightCapturesLowBit : Obligations.ShiftRightCapturesLowBit := by
  intro x s
  obtain ⟨hother, hflag⟩ := writeInOrder_shift s x (bit := (· % 2)) (shifted := (· / 2)) shiftRight_toNat lowBitFlag_toNat
  refine ⟨_, rfl, sameExcept_writeInOrder s x x _ _, hother, fun hx => (hflag hx).trans ?_⟩
  cases s.config.aluAlias
  case sequential => exact Nat.div_eq_of_lt (Nat.mod_lt _ (by decide))
  case latchedResultLast | latchedFlagLast => rfl

/-- Settles O23: twice the flag itself is below 256. -/
theorem shiftLeftCapturesHighBit : Obligations.ShiftLeftCapturesHighBit := by
  intro x s
  obtain ⟨hother, hflag⟩ := writeInOrder_shift s x (bit := (· / 128)) (shifted := (2 * · % 256)) shiftLeft_toNat highBitFlag_toNat
  refine ⟨_, rfl, sameExcept_writeInOrder s x x _ _, hother, fun hx => (hflag hx).trans ?_⟩
  cases s.config.aluAlias
  case sequential =>
    have hbyte := (s.reg x).isLt
    exact Nat.mod_eq_of_lt (by omega)
  case latchedResultLast | latchedFlagLast => rfl

/-! ### RND (R93) -/

/-- Settles O24: one register write and one count, or nothing. -/
theorem randomDrawIsMasked : Obligations.RandomDrawIsMasked := by
  refine fun x kk s => ⟨fun hmode => ?_, fun hmode => ?_⟩
  · have hexec : exec (.rnd x kk) s = .next (s.setReg x (Config.draw8 s.draws &&& kk)).countDraw := by
      change execRnd x kk s = _
      simp only [execRnd, hmode]
    refine ⟨_, hexec, sameExcept_countedDraw s x _, rfl, fun k => ?bits, fun hkk => ?zero⟩
    case bits => rw [countDraw_reg, setReg_reg_self, BitVec.getLsbD_and]
    case zero =>
      rw [countDraw_reg, setReg_reg_self, hkk]
      exact BitVec.and_zero
  · change execRnd x kk s = _
    simp only [execRnd, hmode]

end Sys2Proof.Proofs.FlagWriters
end

section
/-!
PROOFS of ADD I (R97) and of the instructions that store and load bytes at I (R99, R101, R102), over the next
instruction too (R41).
-/
namespace Sys2Proof.Proofs.StoresAndLoads
open Sys2Proof Sys2Proof.Machine Sys2Proof.Claims
open Sys2Proof.Proofs.Frames Sys2Proof.Proofs.Cycle

/-- Settles O26: one write of I, of a sum modulo 65536. -/
theorem indexAddWrapsAt16Bits : Obligations.IndexAddWrapsAt16Bits := by
  refine fun x s => ⟨_, rfl, ?_, IndexMemory.sameExcept_setI s _⟩
  rw [setI_i, BitVec.toNat_add, zext8, BitVec.toNat_setWidth_of_le (by decide)]

/-! ### The decimal digits (R99) -/

theorem byte_toNat_of_lt {d : Nat} (h : d < 256) : (BitVec.ofNat 8 d).toNat = d := Nat.mod_eq_of_lt h

/-- Settles O27: the store of three bytes, each of which is a digit. -/
theorem bcdStoreWritesDigits : Obligations.BcdStoreWritesDigits := by
  intro x s hrange
  refine ⟨_, exec_ldB_of_inRange hrange, sameExcept_storeBytes s _ _ 3, fun hs => ?_⟩
  have hbyte : ∀ k, k < 3 → (storeBytes s s.i.toNat (bcdDigit (s.reg x)) 3).byteAt (s.i.toNat + k) = bcdDigit (s.reg x) k :=
    fun k hk => storeBytes_byteAt hs _ _ hk (by decide)
  have hlt := (s.reg x).isLt
  refine ⟨(congrArg BitVec.toNat (hbyte 0 (by decide))).trans ?hundreds, (congrArg BitVec.toNat (hbyte 1 (by decide))).trans ?tens,
    (congrArg BitVec.toNat (hbyte 2 (by decide))).trans ?units⟩
  all_goals exact byte_toNat_of_lt (by omega)

/-! ### The dump and the load (R101, R102) -/

/-- A byte of the dump is the register it was stored from. -/
theorem dump_byteAt {s : State} (hs : StateInv s) (x : Reg) {k : Reg} (hk : k.val ≤ x.val) :
    (storeBytes s s.i.toNat (fun k => s.reg (Fin.ofNat 16 k)) (x.val + 1)).byteAt (s.i.toNat + k.val) = s.reg k := by
  rw [storeBytes_byteAt hs _ _ (by omega) (by omega), Fin.ofNat_val_eq_self]

/-- Settles O28: the dump is one store of the registers up to Vx. -/
theorem registerDumpStoresPrefix : Obligations.RegisterDumpStoresPrefix := fun x s hrange =>
  ⟨_, exec_ldMemVx_of_inRange hrange, sameExcept_storeBytes s _ _ _, fun hs _ hk => dump_byteAt hs x hk⟩

theorem loadRegs_reg_of_le (s : State) (base : Nat) {x r : Reg} (h : r.val ≤ x.val) :
    (loadRegs s base (x.val + 1)).reg r = s.byteAt (base + r.val) := by
  rw [loadRegs_reg s base x.isLt, if_pos (by omega)]

theorem loadRegs_reg_of_lt (s : State) (base : Nat) {x r : Reg} (h : x.val < r.val) :
    (loadRegs s base (x.val + 1)).reg r = s.reg r := by
  rw [loadRegs_reg s base x.isLt, if_neg (by omega)]

/-- Settles O29: the load writes the registers up to Vx and no other. -/
theorem registerLoadReadsPrefix : Obligations.RegisterLoadReadsPrefix := fun x s hrange =>
  ⟨_, exec_ldVxMem_of_inRange hrange, fun _ hk => loadRegs_reg_of_le s _ hk, fun _ hk => loadRegs_reg_of_lt s _ hk,
    sameExcept_loadRegs s _ x⟩

/-- Settles O30: the dump changes neither I nor the parameters, so the load reads the cells that the dump wrote. -/
theorem loadAfterDumpRestores : Obligations.LoadAfterDumpRestores := by
  intro x s t v' hs h
  have hframe := exec_sameExcept h
  have hi : t.i = s.i := hframe.i (by simp [writtenParts])
  obtain ⟨hrange, rfl⟩ := exec_ldMemVx_next h
  generalize hdump : storeBytes s s.i.toNat (fun k => s.reg (Fin.ofNat 16 k)) (x.val + 1) = t at hframe hi
  have hrange' : InRange { t with v := v' } t.i.toNat (x.val + 1) := by
    rw [hi]
    unfold InRange
    rwa [show ({ t with v := v' } : State).config = s.config from hframe.config]
  refine ⟨_, exec_ldVxMem_of_inRange hrange', fun k hk => ?_, fun k hk => loadRegs_reg_of_lt _ _ hk⟩
  rw [loadRegs_reg_of_le _ _ hk, ← dump_byteAt hs x hk, hdump, ← hi]
  rfl

/-! ### Bytes stored under `PC` (R41) -/

theorem inRange_mono {s : State} {base len len' : Nat} (h : InRange s base len) (hle : len' ≤ len) : InRange s base len' := by
  rcases h with h | h | h
  · exact .inl h
  · exact .inr (.inl (by omega))
  · exact .inr (.inr (by omega))

/-- The two bytes of the fetch are those of V0 and V1. -/
theorem fetchWord_of_dump {x : Reg} {s t : State} (hs : StateInv s) (hpc : s.i = s.pc) (hx : 1 ≤ x.val)
    (h : exec (.ldMemVx x) s = .next t) : fetchWord t = wordOfBytes (s.reg 0) (s.reg 1) := by
  have htpc : t.pc = s.pc := (exec_sameExcept h).pc (by simp [writtenParts])
  obtain ⟨-, rfl⟩ := exec_ldMemVx_next h
  unfold fetchWord
  rw [htpc, ← hpc]
  exact congrArg₂ wordOfBytes (dump_byteAt hs x (k := 0) (Nat.zero_le _)) (dump_byteAt hs x (k := 1) hx)

/-- Settles O31: the dump covers both bytes of the fetch, and it writes neither `PC` nor the schedule. -/
theorem storedBytesAreFetchedNext : Obligations.StoredBytesAreFetchedNext := by
  intro x s t rest hs hnext hpc hx h
  have hframe := exec_sameExcept h
  have htpc : t.pc = s.pc := hframe.pc (by simp [writtenParts])
  have hrange : InRange t t.pc.toNat 2 := by
    unfold InRange
    rw [hframe.config, htpc, ← hpc]
    exact inRange_mono (exec_ldMemVx_next h).1 (by omega)
  have htnext : CycleIsNext t rest := by
    unfold CycleIsNext
    rwa [hframe.schedule (schedule_not_written _)]
  rw [step_of_inRange htnext hrange, fetchWord_of_dump hs hpc hx h]
  rfl

end Sys2Proof.Proofs.StoresAndLoads
end

section
/-!
PROOFS of DRW (R117, R118): a draw inverts the cells that its sprite covers, and says whether one of them was 1.
-/
namespace Sys2Proof.Proofs.Drawing
open Sys2Proof Sys2Proof.Machine Sys2Proof.Claims
open Sys2Proof.Proofs.Frames Sys2Proof.Proofs.Cycle

/-! ### Drawing a set of cells -/

/-- From `d` to `d'` exactly the cells of `covered` are inverted, and a collision is one of them that was 1. -/
structure Drawn (covered : Fin 32 → Fin 64 → Prop) (d d' : Framebuffer × Bool) : Prop where
  inverted  : ∀ r c, covered r c → d'.1.cell r c = !d.1.cell r c
  kept      : ∀ r c, ¬ covered r c → d'.1.cell r c = d.1.cell r c
  collision : d'.2 = true ↔ d.2 = true ∨ ∃ r c, covered r c ∧ d.1.cell r c = true

theorem Drawn.congr {p q : Fin 32 → Fin 64 → Prop} {d d' : Framebuffer × Bool} (h : Drawn p d d') (hpq : ∀ r c, p r c ↔ q r c) :
    Drawn q d d' := by
  obtain rfl : p = q := funext fun r => funext fun c => propext (hpq r c)
  exact h

theorem drawn_nothing {p : Fin 32 → Fin 64 → Prop} (d : Framebuffer × Bool) (h : ∀ r c, ¬ p r c) : Drawn p d d where
  inverted r c hp := absurd hp (h r c)
  kept _ _ _ := rfl
  collision := by simp [h]

theorem drawn_pixel (r : Fin 32) (c : Fin 64) (d : Framebuffer × Bool) :
    Drawn (fun r' c' => r' = r ∧ c' = c) d (drawPixel r c d) where
  inverted r' c' h := by rw [drawPixel, toggle_cell, if_pos h]
  kept r' c' h := by rw [drawPixel, toggle_cell, if_neg h]
  collision := by simp [drawPixel]

/-- Two draws of disjoint sets of cells, one after the other. -/
theorem Drawn.trans {p q : Fin 32 → Fin 64 → Prop} {d d' d'' : Framebuffer × Bool} (hp : Drawn p d d') (hq : Drawn q d' d'')
    (hdisjoint : ∀ r c, p r c → ¬ q r c) : Drawn (fun r c => p r c ∨ q r c) d d'' where
  inverted r c h := by
    rcases h with h | h
    · rw [hq.kept r c (hdisjoint r c h), hp.inverted r c h]
    · rw [hq.inverted r c h, hp.kept r c fun h' => hdisjoint r c h' h]
  kept r c h := by
    rw [not_or] at h
    rw [hq.kept r c h.2, hp.kept r c h.1]
  collision := by
    have hcell : ∀ r c, q r c → d'.1.cell r c = d.1.cell r c := fun r c h => hp.kept r c fun h' => hdisjoint r c h' h
    rw [hq.collision, hp.collision, or_assoc]
    refine or_congr_right ⟨?_, ?_⟩
    · rintro (⟨r, c, h, hset⟩ | ⟨r, c, h, hset⟩)
      · exact ⟨r, c, .inl h, hset⟩
      · exact ⟨r, c, .inr h, hcell r c h ▸ hset⟩
    · rintro ⟨r, c, h | h, hset⟩
      · exact .inl ⟨r, c, h, hset⟩
      · exact .inr ⟨r, c, h, (hcell r c h).trans hset⟩

/-! ### The two loops -/

/-- The cells of the first `n` columns of sprite row `r`. -/
def columnsCover (b : Byte) (ax ay r n : Nat) (r' : Fin 32) (c' : Fin 64) : Prop :=
  ∃ k < n, spriteBit b k = true ∧ r' = Fin.ofNat 32 (ay + r) ∧ c' = Fin.ofNat 64 (ax + k)

/-- The cells of the first `n` sprite rows. -/
def rowsCover (bytes : Nat → Byte) (ax ay n : Nat) (r' : Fin 32) (c' : Fin 64) : Prop :=
  ∃ j < n, columnsCover (bytes j) ax ay j 8 r' c'

theorem drawColumns_succ (b : Byte) (ax ay r : Nat) (d : Framebuffer × Bool) (n : Nat) :
    drawColumns b ax ay r d (n + 1) =
      if spriteBit b n then drawPixel (Fin.ofNat 32 (ay + r)) (Fin.ofNat 64 (ax + n)) (drawColumns b ax ay r d n)
      else drawColumns b ax ay r d n := rfl

/-- Positions closer than the width of the screen wrap to different ones. -/
theorem ofNat_add_inj {m : Nat} [NeZero m] {a j k : Nat} (hj : j < m) (hk : k < m) (h : Fin.ofNat m (a + j) = Fin.ofNat m (a + k)) :
    j = k := by
  have hmod : a + j ≡ a + k [MOD m] := congrArg Fin.val h
  exact Nat.ModEq.eq_of_lt_of_lt (Nat.ModEq.add_left_cancel' a hmod) hj hk

theorem drawn_columns (b : Byte) (ax ay r : Nat) (d : Framebuffer × Bool) {n : Nat} (hn : n ≤ 8) :
    Drawn (columnsCover b ax ay r n) d (drawColumns b ax ay r d n) := by
  induction n with
  | zero => exact drawn_nothing d fun _ _ ⟨_, hk, _⟩ => absurd hk (Nat.not_lt_zero _)
  | succ n ih =>
    have ih := ih (by omega)
    rw [drawColumns_succ]
    split
    · next hbit =>
      refine (ih.trans (drawn_pixel _ _ _) ?disjoint).congr fun r' c' => ?cover
      case disjoint =>
        rintro _ _ ⟨k, hk, -, -, rfl⟩ ⟨-, hc⟩
        exact absurd (ofNat_add_inj (by omega) (by omega) hc) hk.ne
      case cover => simp only [columnsCover, Nat.exists_lt_succ_right, hbit, true_and]
    · next hbit =>
      refine ih.congr fun r' c' => ?_
      simp only [columnsCover, Nat.exists_lt_succ_right, hbit, Bool.false_eq_true, false_and, or_false]

theorem drawn_rows (bytes : Nat → Byte) (ax ay : Nat) (d : Framebuffer × Bool) {n : Nat} (hn : n ≤ 32) :
    Drawn (rowsCover bytes ax ay n) d (drawRows bytes ax ay d n) := by
  induction n with
  | zero => exact drawn_nothing d fun _ _ ⟨_, hj, _⟩ => absurd hj (Nat.not_lt_zero _)
  | succ n ih =>
    refine ((ih (by omega)).trans (drawn_columns (bytes n) ax ay n _ (le_refl 8)) ?disjoint).congr fun r' c' => ?cover
    case disjoint =>
      rintro _ _ ⟨j, hj, _, _, _, rfl, _⟩ ⟨_, _, _, hr, _⟩
      exact absurd (ofNat_add_inj (by omega) (by omega) hr) hj.ne
    case cover => simp only [rowsCover, Nat.exists_lt_succ_right]

/-! ### The sprite of an instruction -/

theorem mod_of_lt_two_mul {k m : Nat} (h : k < 2 * m) : k % m = if k < m then k else k - m := by
  split
  · next hlt => exact Nat.mod_eq_of_lt hlt
  · rw [Nat.mod_eq_sub_mod (by omega), Nat.mod_eq_of_lt (by omega)]

/-- A position `j` after the anchor, wrapped, is one that lies `j` from the anchor, counted around the edge. -/
theorem wrap_eq_iff {m a j : Nat} {r : Fin m} [NeZero m] (ha : a < m) (hj : j < m) :
    r = Fin.ofNat m (a + j) ↔ (r.val + m - a) % m = j := by
  rw [Fin.ext_iff, Fin.val_ofNat]
  have hr := r.isLt
  rw [mod_of_lt_two_mul (show a + j < 2 * m by omega), mod_of_lt_two_mul (show r.val + m - a < 2 * m by omega)]
  split <;> split <;> omega

theorem spriteCovers_iff (s : State) (x y : Reg) (n : Fin 16) (r : Fin 32) (c : Fin 64) :
    SpriteCovers s x y n r c ↔
      rowsCover (fun r => s.byteAt (s.i.toNat + r)) (anchorColumn s x) (anchorRow s y) n.val r c := by
  have hcol : anchorColumn s x < 64 := Nat.mod_lt _ (by decide)
  have hrow : anchorRow s y < 32 := Nat.mod_lt _ (by decide)
  constructor
  · rintro ⟨hr, hc, hbit⟩
    refine ⟨_, hr, _, hc, hbit, (wrap_eq_iff hrow (by omega)).2 rfl, (wrap_eq_iff hcol (by omega)).2 rfl⟩
  · rintro ⟨j, hj, k, hk, hbit, hr, hc⟩
    have hr := (wrap_eq_iff hrow (by omega)).1 hr
    have hc := (wrap_eq_iff hcol (by omega)).1 hc
    obtain rfl := hr
    obtain rfl := hc
    exact ⟨hj, hk, hbit⟩

theorem flagByte_eq_one (b : Bool) : flagByte b = 1 ↔ b = true := by cases b <;> simp [flagByte]
theorem flagByte_eq_zero (b : Bool) : flagByte b = 0 ↔ b = false := by cases b <;> simp [flagByte]

section sprite
variable (x y : Reg) (n : Fin 16) (s : State)

theorem drawn_sprite : ∃ hit, (drawSprite x y n.val s).reg vf = flagByte hit ∧
    Drawn (SpriteCovers s x y n) (s.fb, false) ((drawSprite x y n.val s).fb, hit) :=
  ⟨_, setReg_reg_self _ _ _, (drawn_rows _ _ _ _ (by omega)).congr fun r c => (spriteCovers_iff s x y n r c).symm⟩

theorem drawSprite_cell_of_covers {r : Fin 32} {c : Fin 64} (h : SpriteCovers s x y n r c) :
    (drawSprite x y n.val s).fb.cell r c = !s.fb.cell r c := by
  obtain ⟨hit, -, hdrawn⟩ := drawn_sprite x y n s
  exact hdrawn.inverted r c h

theorem drawSprite_cell_of_not_covers {r : Fin 32} {c : Fin 64} (h : ¬ SpriteCovers s x y n r c) :
    (drawSprite x y n.val s).fb.cell r c = s.fb.cell r c := by
  obtain ⟨hit, -, hdrawn⟩ := drawn_sprite x y n s
  exact hdrawn.kept r c h

theorem drawSprite_vf_eq_one :
    (drawSprite x y n.val s).reg vf = 1 ↔ ∃ r c, SpriteCovers s x y n r c ∧ s.fb.cell r c = true := by
  obtain ⟨hit, hvf, hdrawn⟩ := drawn_sprite x y n s
  rw [hvf, flagByte_eq_one, hdrawn.collision]
  simp

theorem drawSprite_vf_eq_zero :
    (drawSprite x y n.val s).reg vf = 0 ↔ ∀ r c, SpriteCovers s x y n r c → s.fb.cell r c = false := by
  obtain ⟨hit, hvf, hdrawn⟩ := drawn_sprite x y n s
  rw [hvf, flagByte_eq_zero, ← Bool.not_eq_true, hdrawn.collision]
  simp

end sprite

/-- Settles O35: the draw is one of the cells that the sprite covers. -/
theorem drawXorsSpriteAndReportsCollision : Obligations.DrawXorsSpriteAndReportsCollision := fun x y n s hrange =>
  ⟨_, exec_drw_of_inRange hrange, sameExcept_drawSprite x y n.val s, fun _ _ => drawSprite_cell_of_covers x y n s,
    fun _ _ => drawSprite_cell_of_not_covers x y n s, (drawSprite_vf_eq_one x y n s).2, (drawSprite_vf_eq_zero x y n s).2⟩

/-- The sprite covers the same cells in a state with the same anchor, I and memory. -/
theorem spriteCovers_congr {x y : Reg} {s t : State} (hx : (t.reg x).toNat % 64 = (s.reg x).toNat % 64)
    (hy : (t.reg y).toNat % 32 = (s.reg y).toNat % 32) (hi : t.i = s.i) (hmem : t.mem = s.mem) (n : Fin 16) (r : Fin 32)
    (c : Fin 64) : SpriteCovers t x y n r c ↔ SpriteCovers s x y n r c := by
  unfold SpriteCovers State.byteAt
  rw [hx, hy, hi, hmem]

/-- Settles O36: each covered cell is inverted twice, and a cell is 1 after the first draw where it was 0 before. -/
theorem secondDrawRestoresScreen : Obligations.SecondDrawRestoresScreen := by
  intro x y n s t h hx hy
  obtain ⟨hrange, rfl⟩ := exec_drw_next h
  have hcovers := spriteCovers_congr hx hy rfl rfl n
  refine ⟨_, exec_drw_of_inRange (s := drawSprite x y n.val s) hrange, fb_ext fun r c => ?_, ?_⟩
  · by_cases hc : SpriteCovers s x y n r c
    · rw [drawSprite_cell_of_covers _ _ _ _ ((hcovers r c).2 hc), drawSprite_cell_of_covers _ _ _ _ hc, Bool.not_not]
    · rw [drawSprite_cell_of_not_covers _ _ _ _ (mt (hcovers r c).1 hc), drawSprite_cell_of_not_covers _ _ _ _ hc]
  · rw [drawSprite_vf_eq_one]
    refine exists_congr fun r => exists_congr fun c => ?_
    rw [hcovers r c]
    refine and_congr_right fun hc => ?_
    rw [drawSprite_cell_of_covers _ _ _ _ hc, Bool.not_eq_true']

/-- Settles O37: the draw on a screen without a 1. -/
theorem drawOnClearScreenSetsExactlyTheSprite : Obligations.DrawOnClearScreenSetsExactlyTheSprite := by
  intro x y n s t hrange h
  obtain rfl := Host.Outcome.next.inj h
  refine ⟨_, exec_drw_of_inRange (s := s.setFb clearScreen) hrange, ?_, fun r c => ?_⟩
  · exact (drawSprite_vf_eq_zero _ _ _ _).2 fun r c _ => clearScreen_cell r c
  · by_cases hc : SpriteCovers s x y n r c
    · simp [drawSprite_cell_of_covers x y n (s.setFb clearScreen) hc, hc]
    · simp [drawSprite_cell_of_not_covers x y n (s.setFb clearScreen) hc, hc]

end Sys2Proof.Proofs.Drawing
end

section
/-!
PROOFS of the operations of the host (R138, R146, R148, R152), of the reset state, and of runs that stand at a stop (R124, R130) or that
wait in a jump to itself while ticks keep arriving (R134, R162, D17).
-/
namespace Sys2Proof.Proofs.HostRuns
open Sys2Proof Sys2Proof.Machine Sys2Proof.Claims
open Sys2Proof.Proofs.Frames Sys2Proof.Proofs.Cycle

/-! ### set_key (R138) -/

theorem setKey_key_ne (s : State) {k j : Fin 16} (pressed : Bool) (h : j ≠ k) : (s.setKey k pressed).key[j.val] = s.key[j.val] :=
  Vector.getElem_set_ne k.isLt _ fun e => h (Fin.ext e.symm)

theorem setKey_key_self (s : State) (k : Fin 16) (pressed : Bool) : (s.setKey k pressed).key[k.val] = pressed :=
  Vector.getElem_set_self k.isLt

theorem sameExcept_setKey (s : State) (rest : List Operation) (k : Fin 16) (pressed : Bool) :
    SameExcept [] [.key, .schedule] [] s ((s.setSchedule rest).setKey k pressed) := by
  constructor <;> simp

/-- Settles O50: inside the contract one key is written, outside it the call is refused. -/
theorem setKeyWritesOneFlag : Obligations.SetKeyWritesOneFlag := by
  intro s index pressed rest hnext
  rw [step_eq_perform hnext]
  refine ⟨?inside, fun h => perform_setKey_of_not_lt (Nat.not_lt.2 h) pressed _⟩
  rintro k rfl
  exact ⟨_, perform_setKey_of_lt k.isLt pressed _, rfl, setKey_key_self _ k pressed, fun j hj => setKey_key_ne _ pressed hj,
    sameExcept_setKey s rest k pressed⟩

/-! ### load_program (R148) -/

theorem loadProgram_of_le {bytes : List Byte} (h : bytes.length ≤ 3584) (s : State) :
    loadProgram bytes s = .ok (s.setMem (s.mem.writeList 0x200 bytes)) := if_neg (Nat.not_lt.2 h)

theorem loadProgram_of_gt {bytes : List Byte} (h : bytes.length > 3584) (s : State) :
    loadProgram bytes s = .error .romTooLarge := if_pos h

theorem sameExcept_load {s : State} (hs : StateInv s) {bytes : List Byte} (h : bytes.length ≤ 3584) (rest : List Operation) :
    SameExcept [] [.schedule] (cellsOf 0x200 bytes.length) s ((s.setSchedule rest).setMem (s.mem.writeList 0x200 bytes)) := by
  constructor
  case mem =>
    intro a ha
    rw [setMem_mem, Memory.read_writeList hs 0x200 bytes (by omega), if_neg]
    rintro ⟨hlow, hhigh⟩
    refine not_mem_cellsOf.1 ha (a - 0x200) (by omega) ?_
    rw [cellOf_of_lt (by omega)]
    omega
  all_goals simp

/-- Settles O51: the copy is one write of a list of bytes, which fits below 4096; a rejected payload writes nothing. -/
theorem loadProgramCopiesOrRejects : Obligations.LoadProgramCopiesOrRejects := by
  intro s bytes rest hs hnext
  rw [step_eq_perform hnext, perform_loadProgram]
  refine ⟨fun h => ?copied, fun h => ⟨loadProgram_of_gt h s, ?rejected⟩⟩
  case copied =>
    refine ⟨_, congrArg Host.Outcome.next (if_pos h), loadProgram_of_le h _, rfl, fun k => ?_, sameExcept_load hs h rest⟩
    have hk := k.isLt
    rw [setMem_mem, setSchedule_mem, Memory.read_writeList hs 0x200 bytes (by omega), if_pos (by omega), Nat.add_sub_cancel_left]
    exact List.getD_eq_getElem _ _ hk
  case rejected => exact congrArg Host.Outcome.next (if_neg (by omega))

/-! ### The reset state and the initialization (R146, R152) -/

theorem resetByte_of_outside {a : Nat} (h : a < 0x050 ∨ 0x0A0 ≤ a) : resetByte a = 0 := if_neg (by omega)

theorem fontMemory_read (font : Vector Byte 80) (a : Nat) :
    (fontMemory font).read a = if 0x050 ≤ a ∧ a < 0x050 + 80 then font.toList.getD (a - 0x050) 0 else resetByte a := by
  have h := Memory.read_writeList (m := []) rfl 0x050 font.toList (by rw [Vector.length_toList]; decide) a
  rwa [Vector.length_toList] at h

theorem fontMemory_read_font (font : Vector Byte 80) (j : Fin 80) : (fontMemory font).read (0x050 + j.val) = font[j.val] := by
  rw [fontMemory_read, if_pos (by omega), Nat.add_sub_cancel_left, List.getD_eq_getElem _ _ (by simp), Vector.getElem_toList]

theorem fontMemory_read_outside (font : Vector Byte 80) {a : Nat} (h : a < 0x050 ∨ 0x0A0 ≤ a) : (fontMemory font).read a = 0 := by
  rw [fontMemory_read, if_neg (by omega), resetByte_of_outside h]

theorem reset_reg (r : Reg) : State.reset.reg r = 0 := Vector.getElem_replicate _
theorem reset_slot (k : Fin 16) : State.reset.stack[k.val] = 0 := Vector.getElem_replicate _
theorem reset_key (k : Fin 16) : State.reset.key[k.val] = false := Vector.getElem_replicate _
theorem reset_cell (r : Fin 32) (c : Fin 64) : State.reset.fb.cell r c = false := clearScreen_cell r c

theorem atResetValues_initializeMachine (s : State) : AtResetValues (initializeMachine s) :=
  ⟨reset_reg, rfl, rfl, reset_slot, rfl, rfl, rfl, reset_cell, reset_key, fontMemory_read_font s.config.font,
    fun _ => fontMemory_read_outside s.config.font⟩

/-- Settles O52: every component is a constant of the reset state, but memory, which is the font written into zeros. -/
theorem resetOperationSetsEveryComponent : Obligations.ResetOperationSetsEveryComponent := by
  intro s rest hnext
  obtain ⟨hreg, hi, hpc, hstack, hsp, hdt, hst, hfb, hkey, hfont, hzero⟩ := atResetValues_initializeMachine (s.setSchedule rest)
  exact ⟨_, step_eq_perform hnext, hreg, hi, hpc, hstack, hsp, hdt, hst, hfb, hkey, hfont, hzero, rfl, rfl, rfl⟩

theorem reset_byteAt_outside {a : Nat} (ha : a < 4096) (h : a < 0x050 ∨ 0x0A0 ≤ a) : State.reset.byteAt a = 0 := by
  rw [State.byteAt, cellOf_of_lt ha]
  exact resetByte_of_outside h

/-- Settles O53: the same constants, and the 80 font bytes read back one by one. -/
theorem resetStateHasTheSpecifiedValues : Obligations.ResetStateHasTheSpecifiedValues := by
  refine ⟨reset_reg, rfl, rfl, reset_slot, rfl, rfl, rfl, reset_cell, reset_key, fun _ => reset_byteAt_outside, ?bytes, ?font, rfl, rfl,
    rfl, rfl⟩
  case bytes => decide
  case font => decide

/-! ### Runs that stand at a stop (R124, R130; log 23) -/

theorem perform_config {op : Operation} {s t : State} (h : perform op s = .next t) : t.config = s.config := by
  cases op with
  | initializeMachine | tickTimers | framebufferView => obtain rfl := Host.Outcome.next.inj h; rfl
  | loadProgram bytes =>
    rw [perform_loadProgram] at h
    obtain rfl := Host.Outcome.next.inj h
    split <;> rfl
  | runCycle => exact (exec_sameExcept (s := advance s) (runCycle_next h).2).config
  | setKey index pressed =>
    by_cases hk : index < 16
    · rw [perform_setKey_of_lt hk] at h
      obtain rfl := Host.Outcome.next.inj h
      rfl
    · rw [perform_setKey_of_not_lt hk] at h
      cases h

theorem runFrom_config {s : State} {op : Operation} : (runFrom s (perform op s)).state.config = s.config := by
  cases h : perform op s with
  | next t => exact perform_config h
  | fault _ | refused _ => rfl

theorem performOn_config (op : Operation) (r : Run) : (performOn op r).state.config = r.state.config := by
  rcases performOn_cases op r with ⟨-, h⟩ | ⟨-, -, h⟩ | ⟨-, -, h⟩ <;> rw [h]
  · exact runFrom_config
  · rfl

theorem runAfter_config (sched : Schedule) (s : State) (n : Nat) : (sched.runAfter s n).state.config = s.config := by
  induction n with
  | zero => rfl
  | succ n ih =>
    cases hop : sched.operation n with
    | none => simpa [Schedule.runAfter, hop] using ih
    | some op => rw [runAfter_succ s hop, performOn_config, ih]

theorem stop_ne_none {r : Run} (h : ∀ t, r.outcome ≠ .next t) : r.stop ≠ none := fun hstop =>
  h r.state (by rw [Run.outcome, hstop])

/-- Settles O59: of the three things an operation can do to a run, the last two are those that meet a stop. -/
theorem onlyInitializationLeavesAStop : Obligations.OnlyInitializationLeavesAStop := by
  intro sched s n op hop hstopped
  have hstop : (sched.runAfter s n).stop ≠ none := stop_ne_none hstopped
  unfold Schedule.stateAfter
  rw [runAfter_succ s hop]
  rcases performOn_cases op (sched.runAfter s n) with ⟨h, -⟩ | ⟨-, hinit, h⟩ | ⟨-, hother, h⟩
  · exact absurd h hstop
  · rw [h]
    exact ⟨fun _ => ⟨_, rfl, atResetValues_initializeMachine _, runAfter_config sched s n⟩, fun hne => absurd hinit hne⟩
  · rw [h]
    exact ⟨fun hinit => absurd hinit hother, fun _ => rfl⟩

/-! ### Waiting in a jump to itself while ticks keep arriving (R134, R162, D17) -/

/-- The word at `PC` is the jump to that address. -/
def WaitsInPlace (s : State) : Prop := s.pc.toNat < 4096 ∧ WordAtPc s (0x1000 + s.pc.toNat)

/-- What an operation of a running host does to a state that waits in place. -/
inductive HostStep (op : Operation) (s : State) : State → Prop where
  | stays : op ≠ .tickTimers → HostStep op s s
  | ticks : op = .tickTimers → HostStep op s (tickTimers s)
  | setsKey (k : Fin 16) (pressed : Bool) : op = .setKey k.val pressed → HostStep op s (s.setKey k pressed)

theorem perform_waitsInPlace {op : Operation} {s : State} (hop : RunningOperation op) (hs : WaitsInPlace s) :
    ∃ t, perform op s = .next t ∧ WaitsInPlace t ∧ HostStep op s t := by
  rcases hop with rfl | rfl | rfl | ⟨k, pressed, hk, rfl⟩
  · exact ⟨s, runCycle_selfJump hs.1 hs.2, hs, .stays (by simp)⟩
  · exact ⟨_, rfl, hs, .ticks rfl⟩
  · exact ⟨s, rfl, hs, .stays (by simp)⟩
  · exact ⟨_, perform_setKey_of_lt hk pressed s, hs, .setsKey ⟨k, hk⟩ pressed rfl⟩

section waiting
variable {ops : Nat → Operation} {s : State}

theorem runAfter_waitsInPlace (hops : ∀ n, RunningOperation (ops n)) (hs : WaitsInPlace s) (n : Nat) :
    ∃ t, (Schedule.infinite ops).runAfter s n = runningAt t ∧ WaitsInPlace t := by
  induction n with
  | zero => exact ⟨s, rfl, hs⟩
  | succ n ih =>
    obtain ⟨t, hrun, ht⟩ := ih
    obtain ⟨u, hperform, hu, -⟩ := perform_waitsInPlace (hops n) ht
    refine ⟨u, ?_, hu⟩
    rw [runAfter_succ s rfl, hrun]
    exact congrArg (runFrom t) hperform

/-- The run of the schedule as the sequence of its states. -/
theorem exists_states (hops : ∀ n, RunningOperation (ops n)) (hs : WaitsInPlace s) :
    ∃ u : Nat → State, u 0 = s ∧ (∀ n, (Schedule.infinite ops).stateAfter s n = .next (u n)) ∧
      ∀ n, HostStep (ops n) (u n) (u (n + 1)) := by
  choose u hrun hwaits using runAfter_waitsInPlace hops hs
  refine ⟨u, (congrArg Run.state (hrun 0)).symm, fun n => congrArg Run.outcome (hrun n), fun n => ?_⟩
  obtain ⟨t, hperform, -, hstep⟩ := perform_waitsInPlace (hops n) (hwaits n)
  have hnext : runningAt (u (n + 1)) = runningAt t := by
    rw [← hrun (n + 1), runAfter_succ s rfl, hrun n]
    exact congrArg (runFrom (u n)) hperform
  rwa [show u (n + 1) = t from congrArg Run.state hnext]

end waiting

/-- Neither timer is above `b`. -/
def TimersAtMost (b : Nat) (s : State) : Prop := s.dt.toNat ≤ b ∧ s.st.toNat ≤ b

theorem tick_timersAtMost {b : Nat} {s : State} (h : TimersAtMost (b + 1) s) : TimersAtMost b (tickTimers s) := by
  obtain ⟨hdt, hst⟩ := h
  have hdt' : (tickTimers s).dt.toNat = s.dt.toNat - 1 := HostOperations.tickDown_toNat s.dt
  have hst' : (tickTimers s).st.toNat = s.st.toNat - 1 := HostOperations.tickDown_toNat s.st
  unfold TimersAtMost
  omega

theorem TimersAtMost.mono {b c : Nat} {s : State} (h : TimersAtMost b s) (hbc : b ≤ c) : TimersAtMost c s :=
  ⟨h.1.trans hbc, h.2.trans hbc⟩

theorem HostStep.timersAtMost {op : Operation} {s t : State} {b : Nat} (hstep : HostStep op s t) (h : TimersAtMost b s) :
    TimersAtMost b t := by
  cases hstep with
  | stays _ => exact h
  | ticks _ => exact tick_timersAtMost (h.mono (Nat.le_succ b))
  | setsKey k pressed _ => exact h

theorem HostStep.tick {s t : State} (hstep : HostStep .tickTimers s t) : t = tickTimers s := by
  cases hstep with
  | stays hne => exact absurd rfl hne
  | ticks _ => rfl
  | setsKey k pressed hop => cases hop

theorem HostStep.only_timers_and_keys {op : Operation} {s t u : State} (hstep : HostStep op t u)
    (h : t = { s with dt := t.dt, st := t.st, key := t.key }) : u = { s with dt := u.dt, st := u.st, key := u.key } := by
  cases hstep with
  | stays _ => exact h
  | ticks _ => rw [h]; rfl
  | setsKey k pressed _ => rw [h]; rfl

theorem HostStep.key_of_no_setKey {op : Operation} {s t : State} (hstep : HostStep op s t) (h : ∀ k pressed, op ≠ .setKey k pressed) :
    t.key = s.key := by
  cases hstep with
  | stays _ | ticks _ => rfl
  | setsKey k pressed hop => exact absurd hop (h _ _)

section states
variable {ops : Nat → Operation} {u : Nat → State} (hstep : ∀ n, HostStep (ops n) (u n) (u (n + 1)))
include hstep

theorem timersAtMost_of_le {b n m : Nat} (hnm : n ≤ m) (h : TimersAtMost b (u n)) : TimersAtMost b (u m) := by
  induction m, hnm using Nat.le_induction with
  | base => exact h
  | succ m _ ih => exact (hstep m).timersAtMost ih

/-- Every tick that arrives lowers the bound by one. -/
theorem exists_timersAtMost (hticks : (Schedule.infinite ops).TicksKeepArriving) (b k : Nat) (h : TimersAtMost (b + k) (u 0)) :
    ∃ n, TimersAtMost b (u n) := by
  induction k generalizing b with
  | zero => exact ⟨0, h⟩
  | succ k ih =>
    obtain ⟨n, hn⟩ := ih (b + 1) (by rwa [Nat.add_right_comm])
    obtain ⟨m, hnm, hop⟩ := hticks n
    have htick : u (m + 1) = tickTimers (u m) := HostStep.tick (Option.some.inj hop ▸ hstep m)
    exact ⟨m + 1, htick ▸ tick_timersAtMost (timersAtMost_of_le hstep hnm hn)⟩

theorem only_timers_and_keys (n : Nat) : u n = { u 0 with dt := (u n).dt, st := (u n).st, key := (u n).key } := by
  induction n with
  | zero => rfl
  | succ n ih => exact (hstep n).only_timers_and_keys ih

theorem key_of_no_setKey (h : ∀ j k pressed, ops j ≠ .setKey k pressed) (n : Nat) : (u n).key = (u 0).key := by
  induction n with
  | zero => rfl
  | succ n ih => exact ((hstep n).key_of_no_setKey (h n)).trans ih

end states

/-- Settles O58: each tick lowers a bound on both timers, which no other operation raises, so 255 ticks bring it to 0. -/
theorem timersStopWhenTicksKeepArriving : Obligations.TimersStopWhenTicksKeepArriving := by
  intro ops s hops hticks hpc hword
  obtain ⟨u, rfl, hstates, hstep⟩ := exists_states hops ⟨hpc, hword⟩
  have hstart : TimersAtMost (0 + 255) (u 0) := ⟨Nat.le_of_lt_succ (u 0).dt.isLt, Nat.le_of_lt_succ (u 0).st.isLt⟩
  obtain ⟨n, hn⟩ := exists_timersAtMost hstep hticks 0 255 hstart
  refine ⟨n, fun m hnm => ⟨u m, hstates m, ?frame, fun hkeys => key_of_no_setKey hstep hkeys m⟩⟩
  obtain ⟨hdt, hst⟩ := timersAtMost_of_le hstep hnm hn
  have hdt : (u m).dt = 0 := BitVec.eq_of_toNat_eq (Nat.le_zero.1 hdt)
  have hst : (u m).st = 0 := BitVec.eq_of_toNat_eq (Nat.le_zero.1 hst)
  have hframe := only_timers_and_keys hstep m
  rwa [hdt, hst] at hframe

end Sys2Proof.Proofs.HostRuns
end
